-- ==== Sys2Proof/Word.lean ====
section
/-! DEFINITION. The word and the byte of the bus (spec/00_scope.md R7, R9). -/

namespace Sys2Proof

/-- One register or RAM word, 32 bits (R7: bus data width). -/
abbrev Word := BitVec 32

/-- One byte lane of a word (20_memory R77). -/
abbrev Byte := BitVec 8

/-- `s32(w)`: the word read in two's complement (00_scope R9). -/
abbrev s32 (w : Word) : Int := w.toInt

/-- `u32(w)`: the word read unsigned (00_scope R9). -/
abbrev u32 (w : Word) : Nat := w.toNat

end Sys2Proof
end

