-- ==== Sys2Proof/Syntax.lean ====
section
/-! DEFINITION. The commands of the block: one constructor per row of spec/opcode_table.json
(spec/30_encoding.md R102). A command word carries no operand field (R101). -/

namespace Sys2Proof

/-- The seven commands (30_encoding R102). -/
inductive Instr where
  /-- `NOP`, opcode `0x00` (40_command_engine R140). -/
  | nop
  /-- `FRAME_START`, opcode `0x01` (40_command_engine R141). -/
  | frameStart
  /-- `FILTER`, opcode `0x02` (41_reconstructor R143). -/
  | filter
  /-- `SYNC`, opcode `0x03` (41_reconstructor R150). -/
  | sync
  /-- `DEMOD`, opcode `0x04` (42_demodulator R160). -/
  | demod
  /-- `COLOR`, opcode `0x05` (43_color R191). -/
  | color
  /-- `LINE`, opcode `0x06` (44_line R240). -/
  | line
deriving DecidableEq, Repr

end Sys2Proof
end

