-- ==== Sys2Proof/WellFormed.lean ====
section
/-! DEFINITION. Well-formedness. A command has no operand (spec/30_encoding.md R101), so every term of `Instr` is
well formed; what can be ill formed is the command word, by its reserved bits or its opcode (R100, R103). -/

namespace Sys2Proof

/-- Every command is well formed: it carries no register number, immediate or mode field (30_encoding R101). -/
def Instr.wf : Instr → Bool
  | .nop => true
  | .frameStart => true
  | .filter => true
  | .sync => true
  | .demod => true
  | .color => true
  | .line => true

/-- The reserved bits 31:8 of a command word are zero (30_encoding R100). -/
def reservedClear (w : Word) : Bool := w.extractLsb' 8 24 == 0#24

/-- The opcode field, bits 7:0, names a row of the table (30_encoding R102, R103). -/
def opcodeKnown (w : Word) : Bool := (w.extractLsb' 0 8).toNat < 7

/-- A command word that spells a command (30_encoding R103). -/
def wordWellFormed (w : Word) : Bool := reservedClear w && opcodeKnown w

end Sys2Proof
end

