-- ==== Sys2Proof/Decode.lean ====
section
/-! DEFINITION. Decoding a command word, and the encoder, both from the table of spec/30_encoding.md R102. -/

namespace Sys2Proof

/-- Why bytes spell no command. Raised by the decoder only; the machine turns the last two into
`Err(ILLEGAL_CMD)` (30_encoding R103). Safe: nothing runs. -/
inductive DecodeError where
  /-- Fewer than the four bytes of a command word (30_encoding R100: every command has this length). -/
  | tooShort
  /-- Bits 31:8 are not all zero (30_encoding R103). -/
  | reservedBits
  /-- Bits 7:0 are in `0x07`-`0xFF` (30_encoding R103). -/
  | noSuchOpcode
deriving DecidableEq, Repr

/-- What a decoder answers. -/
abbrev Decoded := Except DecodeError Instr

/-- The opcode of each command (30_encoding R102, column `OPCODE`). -/
def opcode : Instr → BitVec 8
  | .nop => 0x00#8
  | .frameStart => 0x01#8
  | .filter => 0x02#8
  | .sync => 0x03#8
  | .demod => 0x04#8
  | .color => 0x05#8
  | .line => 0x06#8

/-- The row an opcode selects (30_encoding R102, R103). -/
def decodeOpcode (op : BitVec 8) : Decoded :=
  match op.toNat with
  | 0 => .ok .nop
  | 1 => .ok .frameStart
  | 2 => .ok .filter
  | 3 => .ok .sync
  | 4 => .ok .demod
  | 5 => .ok .color
  | 6 => .ok .line
  | _ => .error .noSuchOpcode

/-- The command a word spells: the row whose opcode equals `w[7:0]`, provided `w[31:8] = 0` (30_encoding R102). -/
def decodeWord (w : Word) : Decoded :=
  if w.extractLsb' 8 24 = 0#24 then decodeOpcode (w.extractLsb' 0 8) else .error .reservedBits

/-- A word from its four byte lanes, lane 0 least significant (20_memory R77). -/
def wordOfBytes (b0 b1 b2 b3 : Byte) : Word := b3 ++ b2 ++ b1 ++ b0

/-- Byte lane `k` of a word: bits `8k+7 : 8k` (20_memory R77). -/
def byteOfWord (w : Word) (k : Nat) : Byte := w.extractLsb' (8 * k) 8

/-- Decode the first command of a sequence of bytes, lowest offset first, and give the bytes after it. -/
def decodeBytes : List Byte → Except DecodeError (Instr × List Byte)
  | b0 :: b1 :: b2 :: b3 :: rest =>
    match decodeWord (wordOfBytes b0 b1 b2 b3) with
    | .ok i => .ok (i, rest)
    | .error e => .error e
  | _ => .error .tooShort

/-- The word of a command (30_encoding R100, R102): its opcode in bits 7:0, zero above. -/
def encode (i : Instr) : Word := (0#24 : BitVec 24) ++ opcode i

/-- A word as the bus stores it: lane 0 at the lowest offset (20_memory R77). -/
def bytesOfWord (w : Word) : List Byte := [byteOfWord w 0, byteOfWord w 1, byteOfWord w 2, byteOfWord w 3]

/-- The bytes of a command. -/
def encodeBytes (i : Instr) : List Byte := bytesOfWord (encode i)

/-- The command word with the `nbits` low bits of `w`, zero above: none when the table gives the row more bits
than a command word has. -/
def tableWord (nbits w : Nat) : Option Word :=
  if nbits ≤ 32 then some (BitVec.ofNat 32 (w % 2 ^ nbits)) else none

/-- The command the decoder reads from an instruction whose bits are `w`, numbered as spec/opcode_table.json
numbers them; the word is laid out in its bytes and given to `decodeBytes`. -/
def decodeTableWord (nbits w : Nat) : Option Instr :=
  match tableWord nbits w with
  | none => none
  | some x =>
    match decodeBytes (bytesOfWord x) with
    | .ok (i, _) => some i
    | .error _ => none

end Sys2Proof
end

