-- ==== Sys2Proof/Config.lean ====
section
/-! DEFINITION. The fixed parameters of the block (spec/00_scope.md R7), the platform's parameters, and the
free values: opaque constants with no body, so that no proof can rest on what they are. -/

namespace Sys2Proof.Config

/-- Entries of each line RAM and the largest legal `LINE_LEN` (00_scope R7, 10_state R22). -/
def lineMax : Nat := 4096

/-- Largest legal `WIN_LEN` (00_scope R7, 10_state R36). -/
def winMax : Nat := 256

/-- Largest legal `CHUNK_W` (00_scope R7, 10_state R41). -/
def chunkMax : Nat := 256

/-- Entries of the carrier sine table (00_scope R7, 10_state R22). -/
def lutSize : Nat := 256

/-- The value of the read-only `ID` register, "AV2H" (00_scope R2, 10_state R21). -/
def idWord : Word := 0x41563248#32

/-- `BLOCK_BASE`, the block's base address on the host's bus: the platform's (20_memory R72).
DESIGN CHOICE, log entry 13; safe: nothing is known of it. -/
opaque blockBase : Nat

/-- `IRQ_LINE`, the interrupt controller input that `irq` is connected to: the platform's (60_exceptions R267).
DESIGN CHOICE, log entry 13; safe: nothing is known of it. -/
opaque irqLine : Nat

/-- The byte at an aperture offset of a RAM right after power-on, where nothing has written it: `any`
(10_state R60, 70_reset_and_hazards R290). DESIGN CHOICE of the form, log entry 3; safe: a free value. -/
opaque powerOnByte : Nat → Byte

/-- The n-th draw `any` that the machine takes while it runs (00_scope R12): a read of the pending write set
(70_reset_and_hazards R301) or a RAM word of an aborted command (R292). DESIGN CHOICE of the form, log entry 4;
safe: a free value. -/
opaque freeWord : Nat → Word

/-- A quotient by zero: the spec's formulas have no meaning there (40_command_engine R134), and no run reaches
it. DESIGN CHOICE, log entry 9; safe: a free value of the dividend. -/
opaque quotientByZero : ℚ → ℚ

/-- How many pieces of length zero a length has (40_command_engine R134 excludes it; no run reaches it).
DESIGN CHOICE, log entry 9; safe: a free value of the length. -/
opaque countByZero : Nat → Nat

/-- A remainder by zero (40_command_engine R134 excludes it; no run reaches it).
DESIGN CHOICE, log entry 9; safe: a free value of the dividend. -/
opaque remainderByZero : Nat → Nat

/-- The greatest or least of no numbers (00_scope R10 defines `max` and `min` for non-empty lists only; no run
reaches it). DESIGN CHOICE, log entry 9; safe: a free value. -/
opaque extremumOfNone : ℚ

/-- A word of a RAM at an index the RAM does not have (40_command_engine R134 excludes it; no run reaches it).
The arguments are the RAM's base offset and the index. DESIGN CHOICE, log entry 10; safe: a free value. -/
opaque absentWord : Nat → Nat → Word

end Sys2Proof.Config
end

