-- ==== Sys2Proof/Machine/State.lean ====
section
/-! DEFINITION. The state of the block (spec/10_state.md), its reset, and the reasons a step can stop. -/

namespace Sys2Proof.Machine

/-- The width of a bus transaction in bytes: 1, 2 or 4 (20_memory R70). -/
inductive AccessSize where
  | byte
  | half
  | word
deriving DecidableEq, Repr

/-- A bus transaction `(kind, off, size, data)` (20_memory R70). An offset is below `0x20000`, so 17 bits
(DEDUCED, log entry 15). -/
inductive Transaction where
  /-- Read `size` bytes at `off`. -/
  | read (off : BitVec 17) (size : AccessSize)
  /-- Write `data` at `off` with width `size`. -/
  | write (off : BitVec 17) (size : AccessSize) (data : Word)
deriving DecidableEq, Repr

/-- Whose turn it is: the host with a transaction, or the engine (00_scope R6). -/
inductive Turn where
  | host (t : Transaction)
  | engine
deriving DecidableEq, Repr

/-- The error codes of `STATUS.ERR_CODE` (60_exceptions R260). Codes 5 to 15 are reserved and never raised,
so the type has no name for them. -/
inductive ErrCode where
  /-- 0, the value while `ERR = 0`. -/
  | none
  /-- 1, a `CMD` write of a word that spells no command. -/
  | illegalCmd
  /-- 2, a write dropped because a command is pending. -/
  | busy
  /-- 3, a `CMD` write whose legality predicates do not all hold. -/
  | config
  /-- 4, a transaction that is not valid. -/
  | access
deriving DecidableEq, Repr

/-- The memory of the seven RAMs: cells of (aperture byte offset, byte), offsets strictly rising, one cell for
each stored byte that has been written since power-on (log entries 3 and 11). -/
abbrev Memory := List Host.Cell

/-- The configuration registers, each at its stored width (10_state R33 to R49). -/
structure ConfigRegs where
  /-- `BASELINE`, R33. -/
  baseline : Word
  /-- `RAW_SHIFT`, R34. -/
  rawShift : BitVec 4
  /-- `SCALE`, R35. -/
  scale : Word
  /-- `WIN_LEN`, R36. -/
  winLen : BitVec 9
  /-- `T_FALL`, R37. -/
  tFall : Word
  /-- `T_RISE`, R38. -/
  tRise : Word
  /-- `LINE_LEN`, R39. -/
  lineLen : BitVec 13
  /-- `ROW_CEIL`, R40. -/
  rowCeil : BitVec 16
  /-- `CHUNK_W`, R41. -/
  chunkW : BitVec 9
  /-- `CARRIER_INC`, R42. -/
  carrierInc : Word
  /-- `PHASE_SHIFT`, R43. -/
  phaseShift : Word
  /-- `GAIN`, R44. -/
  gain : Word
  /-- `AMP_CEIL_I`, R45. -/
  ampCeilI : Word
  /-- `AMP_CEIL_Q`, R46. -/
  ampCeilQ : Word
  /-- `Y_LO`, R47. -/
  yLo : Word
  /-- `Y_HI`, R48. -/
  yHi : Word
  /-- `IQ_LIM`, R49. -/
  iqLim : Word
deriving DecidableEq, Repr

/-- The machine: the architectural state of 10_state R20, and three fields of the model's own. Reserved bits
have no storage, since they read 0 and ignore writes (R50; log entry 12). -/
structure State where
  /-- `CTRL.SCAN_MODE`, R25. -/
  scanMode : Bool
  /-- `CTRL.P_MODE`, R25. -/
  pMode : Bool
  /-- `STATUS.DONE`, R26. -/
  done : Bool
  /-- `STATUS.ERR`, R26. -/
  err : Bool
  /-- `STATUS.ERR_CODE`, R26. -/
  errCode : ErrCode
  /-- `STATUS.ALIGN_MISS`, R26. -/
  alignMiss : Bool
  /-- `STATUS.ROW_LIMIT`, R26. -/
  rowLimit : Bool
  /-- `IRQ_EN.DONE_IE`, R28. -/
  doneIe : Bool
  /-- `IRQ_EN.ERR_IE`, R28. -/
  errIe : Bool
  /-- `ROW`, R30. -/
  row : BitVec 16
  /-- `OFFSET`, R31. -/
  offset : BitVec 16
  /-- `SYNC_POS.FALL_IDX`, R32. -/
  fallIdx : BitVec 16
  /-- `SYNC_POS.RISE_IDX`, R32. -/
  riseIdx : BitVec 16
  /-- The configuration registers, R33 to R49. -/
  cfg : ConfigRegs
  /-- The RAMs, R51 to R55. -/
  mem : Memory
  /-- The engine's `busy`, R57; `STATUS.BUSY` reads it. -/
  busy : Bool
  /-- The engine's `pending`, meaningful only while `busy` (R57; log entries 7 and 16). -/
  pending : Option Instr
  /-- MODEL's own: the turns still to come, an input (log entry 1). -/
  agenda : List Turn
  /-- MODEL's own: what the last read transaction returned to the host (log entry 6). -/
  rdata : Word
  /-- MODEL's own: how many `any` draws have been taken (log entry 4). -/
  draws : Nat
deriving DecidableEq, Repr

/-- Why the machine stops. -/
inductive Fault where
  /-- The engine's turn finds `busy = 1` with no pending command. Raised by `step`; safe: no rule of the spec
  describes such a state and no run from reset reaches it (log entry 8). -/
  | noPendingCommand
deriving DecidableEq, Repr

/-- Why an instruction has no meaning. -/
inductive Refusal where
  /-- An arm of `exec` that is not modelled yet, by its mnemonic. Raised by no arm of this model; safe. -/
  | notModelled (mnemonic : String)
deriving DecidableEq, Repr

/-- The configuration registers after reset (10_state R60). -/
def ConfigRegs.reset : ConfigRegs where
  baseline := 0#32
  rawShift := 4#4
  scale := 0#32
  winLen := 16#9
  tFall := 0xFFD80000#32
  tRise := 0xFFFB0000#32
  lineLen := 0#13
  rowCeil := 0#16
  chunkW := 8#9
  carrierInc := 0#32
  phaseShift := 0#32
  gain := 0x00020000#32
  ampCeilI := 0#32
  ampCeilQ := 0#32
  yLo := 0#32
  yHi := 0#32
  iqLim := 0#32

/-- Power-on reset (10_state R60, 70_reset_and_hazards R290). No RAM byte is listed: each reads as its own draw
`any`. The last three fields are the model's own (DESIGN CHOICE, log entries 1, 4, 6). -/
def State.reset : State where
  scanMode := true
  pMode := false
  done := false
  err := false
  errCode := .none
  alignMiss := false
  rowLimit := false
  doneIe := false
  errIe := false
  row := 0#16
  offset := 0#16
  fallIdx := 0xFFFF#16
  riseIdx := 0xFFFF#16
  cfg := .reset
  mem := []
  busy := false
  pending := none
  agenda := []
  rdata := 0#32
  draws := 0

end Sys2Proof.Machine
end

