-- ==== Sys2Proof/Machine/Ops.lean ====
section
/-! DEFINITION. The named operations over memory, RAMs and the engine's state, and `raise Err`. -/

namespace Sys2Proof.Machine

/-! ### RAM bytes (10_state R51 to R55, 20_memory R73, R77) -/

/-- An aperture offset whose byte is RAM storage: the RAM windows of 20_memory R73 without bits 31:16 of the `RAW`
words, which are not stored (10_state R51). -/
def isStored (a : Nat) : Bool :=
  decide (0x4000 ≤ a) && decide (a < 0x1C400) && !(decide (a < 0x8000) && decide (2 ≤ a % 4))

/-- The cell listed for an offset, if any. -/
def memLookup : Memory → Nat → Option Byte
  | [], _ => none
  | (k, b) :: rest, a => if k = a then some b else memLookup rest a

/-- List a cell, keeping the offsets strictly rising. -/
def memInsert : Memory → Nat → Byte → Memory
  | [], a, b => [(a, b)]
  | (k, c) :: rest, a, b =>
    if a < k then (a, b) :: (k, c) :: rest
    else if a = k then (a, b) :: rest
    else (k, c) :: memInsert rest a b

/-- What a stored byte that nothing has written reads as: its power-on draw (10_state R60; log entry 3). -/
def unlistedByte (a : Nat) : Byte := Config.powerOnByte a

/-- One byte as the block holds it: zero where there is no storage (10_state R51). -/
def readByte (m : Memory) (a : Nat) : Byte :=
  if isStored a then (memLookup m a).getD (unlistedByte a) else 0#8

/-- Store one byte; ignored where there is no storage (10_state R51). -/
def writeByte (m : Memory) (a : Nat) (b : Byte) : Memory :=
  if isStored a then memInsert m a b else m

/-- The canonical form of memory: offsets strictly rising, cells only where there is storage (log entry 3). -/
abbrev Memory.wf (m : Memory) : Prop :=
  m.Pairwise (fun c d => c.1 < d.1) ∧ ∀ c ∈ m, isStored c.1 = true

/-- The word at an offset, little-endian lanes (20_memory R77). -/
def readWord (m : Memory) (a : Nat) : Word :=
  wordOfBytes (readByte m a) (readByte m (a + 1)) (readByte m (a + 2)) (readByte m (a + 3))

/-- Store a word at an offset, little-endian lanes (20_memory R77), as one effect (R78). -/
def writeWord (m : Memory) (a : Nat) (w : Word) : Memory :=
  writeByte (writeByte (writeByte (writeByte m a (byteOfWord w 0)) (a + 1) (byteOfWord w 1))
    (a + 2) (byteOfWord w 2)) (a + 3) (byteOfWord w 3)

/-! ### RAM words by index (20_memory R75, R80) -/

/-- The seven RAMs (10_state R51 to R55). -/
inductive Ram where
  | raw
  | wavg
  | ybuf
  | ibuf
  | qbuf
  | pix
  | lut
deriving DecidableEq, Repr

/-- The base offset of each RAM window (20_memory R73). -/
def Ram.base : Ram → Nat
  | .raw => 0x4000
  | .wavg => 0x8000
  | .ybuf => 0xC000
  | .ibuf => 0x10000
  | .qbuf => 0x14000
  | .pix => 0x18000
  | .lut => 0x1C000

/-- How many words each RAM has (20_memory R73). -/
def Ram.words : Ram → Nat
  | .raw => Config.lineMax
  | .wavg => Config.lineMax
  | .ybuf => Config.lineMax
  | .ibuf => Config.lineMax
  | .qbuf => Config.lineMax
  | .pix => Config.lineMax
  | .lut => Config.lutSize

/-- The offset of word `i` of a RAM (20_memory R75). -/
def ramAddr (r : Ram) (i : Nat) : Nat := r.base + 4 * i

/-- `RAM[i]` (00_scope R12). An index the RAM does not have reads a free value (log entry 10). -/
def readRam (m : Memory) (r : Ram) (i : Nat) : Word :=
  if i < r.words then readWord m (ramAddr r i) else Config.absentWord r.base i

/-- `RAM[i] <- w` (00_scope R12). An index the RAM does not have stores nothing (log entry 10). -/
def writeRam (m : Memory) (r : Ram) (i : Nat) (w : Word) : Memory :=
  if i < r.words then writeWord m (ramAddr r i) w else m

/-- `RAM[i] <- f i` for `i` from 0 below `n`. -/
def writeRange (m : Memory) (r : Ram) (f : Nat → Word) : Nat → Memory
  | 0 => m
  | n + 1 => writeRam (writeRange m r f n) r n (f n)

/-! ### Updates of the state, each under a name -/

/-- Replace the RAM contents. -/
def State.withMem (s : State) (m : Memory) : State := { s with mem := m }

/-- Replace the number of draws taken. -/
def State.withDraws (s : State) (n : Nat) : State := { s with draws := n }

/-- Replace the word returned to the host. -/
def State.withRdata (s : State) (w : Word) : State := { s with rdata := w }

/-- Replace the turns to come. -/
def State.withAgenda (s : State) (l : List Turn) : State := { s with agenda := l }

/-- Write `ROW`. -/
def State.withRow (s : State) (r : BitVec 16) : State := { s with row := r }

/-- Write `OFFSET`. -/
def State.withOffset (s : State) (o : BitVec 16) : State := { s with offset := o }

/-- Write the configuration registers. -/
def State.withCfg (s : State) (c : ConfigRegs) : State := { s with cfg := c }

/-- Write `CTRL.SCAN_MODE` and `CTRL.P_MODE`. -/
def State.withModes (s : State) (scan p : Bool) : State := { s with scanMode := scan, pMode := p }

/-- Write `IRQ_EN.DONE_IE` and `IRQ_EN.ERR_IE`. -/
def State.withEnables (s : State) (d e : Bool) : State := { s with doneIe := d, errIe := e }

/-- Write the result of a SYNC stage: `OFFSET`, `SYNC_POS` and `STATUS.ALIGN_MISS` (41_reconstructor R151, R152). -/
def State.withSync (s : State) (off fall rise : BitVec 16) (miss : Bool) : State :=
  { s with offset := off, fallIdx := fall, riseIdx := rise, alignMiss := miss }

/-- Set `STATUS.ROW_LIMIT` (44_line R241). -/
def State.withRowLimit (s : State) : State := { s with rowLimit := true }

/-! ### The command lifecycle and errors -/

/-- `Accept(op)`: `busy` is set and the command is pending; nothing else changes (40_command_engine R131). -/
def accept (i : Instr) (s : State) : State := { s with busy := true, pending := some i }

/-- The end of the completion step: `busy <- 0`, `STATUS.DONE <- 1` (40_command_engine R132). `pending` is left, since
it means nothing while `busy = 0` (10_state R57; log entry 7). -/
def complete (s : State) : State := { s with busy := false, done := true }

/-- `raise Err(code)` (60_exceptions R262): the shared operation of every error. The code of the first error is kept. -/
def raiseErr (c : ErrCode) (s : State) : State :=
  { s with err := true, errCode := if s.err then s.errCode else c }

end Sys2Proof.Machine
end

