-- ==== Sys2Proof/Machine/Operands.lean ====
section
/-! DEFINITION. Numbers and operands: the exact arithmetic of spec/00_scope.md R9 to R13, the derived counts, the
legality predicates of 40_command_engine.md R134, and the samples of a line. -/

namespace Sys2Proof.Machine

/-! ### Exact arithmetic -/

/-- `a / b` in the rationals (00_scope R9); a quotient by zero is free (log entry 9). -/
def divQ (a b : ℚ) : ℚ := if b = 0 then Config.quotientByZero a else a / b

/-- `a div b` for a length `b` (00_scope R9); a count of pieces of length zero is free (log entry 9). -/
def countOf (a b : Nat) : Nat := if b = 0 then Config.countByZero a else a / b

/-- `a mod b` (00_scope R9); a remainder by zero is free (log entry 9). -/
def remOf (a b : Nat) : Nat := if b = 0 then Config.remainderByZero a else a % b

/-- `q(w) = s32(w) / 2^16`, a word read as Q15.16 (00_scope R11). -/
def q (w : Word) : ℚ := (s32 w : ℚ) / 65536

/-- `clamp(x, lo, hi)` (00_scope R10). -/
def clampQ (x lo hi : ℚ) : ℚ := min (max x lo) hi

/-- `clamp` of integers (00_scope R10). -/
def clampZ (x lo hi : Int) : Int := min (max x lo) hi

/-- `sat32(n)` (00_scope R10). -/
def sat32 (n : Int) : Int := clampZ n (-2147483648) 2147483647

/-- `word32(n)` (00_scope R10). -/
def word32 (n : Int) : Word := BitVec.ofInt 32 n

/-- `fx(x) = word32(sat32(floor(x * 2^16)))`, the one rounding of a stored Q15.16 value (00_scope R11). -/
def fx (x : ℚ) : Word := word32 (sat32 ⌊x * 65536⌋)

/-- `mean` of a list, exact (00_scope R10). -/
def mean (xs : List ℚ) : ℚ := divQ xs.sum (xs.length : ℚ)

/-- `max` of a list (00_scope R10). -/
def maxOf (xs : List ℚ) : ℚ := xs.max?.getD Config.extremumOfNone

/-- `min` of a list (00_scope R10). -/
def minOf (xs : List ℚ) : ℚ := xs.min?.getD Config.extremumOfNone

/-! ### Derived counts (00_scope R12) -/

/-- `NWIN = LINE_LEN div WIN_LEN`. -/
def nwin (c : ConfigRegs) : Nat := countOf c.lineLen.toNat c.winLen.toNat

/-- `NPIX = LINE_LEN div CHUNK_W`. -/
def npix (c : ConfigRegs) : Nat := countOf c.lineLen.toNat c.chunkW.toNat

/-! ### Legality (40_command_engine R134) -/

/-- `L_LINE`. -/
def lLine (c : ConfigRegs) : Bool := decide (1 ≤ c.lineLen.toNat) && decide (c.lineLen.toNat ≤ Config.lineMax)

/-- `L_WIN`. -/
def lWin (c : ConfigRegs) : Bool := decide (1 ≤ c.winLen.toNat) && decide (c.winLen.toNat ≤ Config.winMax)

/-- `L_CHUNK`. -/
def lChunk (c : ConfigRegs) : Bool := decide (1 ≤ c.chunkW.toNat) && decide (c.chunkW.toNat ≤ Config.chunkMax)

/-- `L_SCALE`. -/
def lScale (c : ConfigRegs) : Bool := decide (s32 c.scale ≠ 0)

/-- `L_AMP`. -/
def lAmp (c : ConfigRegs) : Bool := decide (0 < s32 c.ampCeilI) && decide (0 < s32 c.ampCeilQ)

/-- `L_Y`. -/
def lY (c : ConfigRegs) : Bool := decide (s32 c.yLo < s32 c.yHi)

/-- `L_IQ`. -/
def lIq (c : ConfigRegs) : Bool := decide (0 < s32 c.iqLim)

/-- `L_OFF`. -/
def lOff (s : State) : Bool := decide (s.offset.toNat < s.cfg.lineLen.toNat)

/-- `Legal(op)`: the conjunction of the predicates of the command's row (40_command_engine R134). -/
def legal (i : Instr) (s : State) : Bool :=
  match i with
  | .nop => true
  | .frameStart => true
  | .filter => lLine s.cfg && lWin s.cfg && lScale s.cfg
  | .sync => lLine s.cfg && lWin s.cfg
  | .demod => lLine s.cfg && lChunk s.cfg && lScale s.cfg && lAmp s.cfg && lY s.cfg && lIq s.cfg && lOff s
  | .color => lLine s.cfg && lChunk s.cfg
  | .line => lLine s.cfg && lWin s.cfg && lChunk s.cfg && lScale s.cfg && lAmp s.cfg && lY s.cfg && lIq s.cfg

/-! ### Samples of a line -/

/-- `volt(x)`: the exact voltage of a raw sample word (41_reconstructor R142). -/
def volt (c : ConfigRegs) (x : Word) : ℚ :=
  divQ ((s32 c.baseline - (((x.extractLsb' 0 16).toNat >>> c.rawShift.toNat : Nat) : Int) : Int) : ℚ) (q c.scale)

/-- The `RAW` index of aligned sample `i` (41_reconstructor R154). -/
def alignedIndex (s : State) (i : Nat) : Nat := remOf (i + s.offset.toNat) s.cfg.lineLen.toNat

/-- `aligned(i)`: the line rotated left by `OFFSET` (41_reconstructor R154). -/
def aligned (s : State) (i : Nat) : Word := readRam s.mem .raw (alignedIndex s i)

end Sys2Proof.Machine
end

