-- ==== Sys2Proof/Machine/Engine.lean ====
section
/-! DEFINITION. The engine: its turn order, the write sets (spec/40_command_engine.md R135), NOP and FRAME_START. -/

namespace Sys2Proof.Machine

/-- `NOP` completes with no other effect (40_command_engine R140, R132). -/
def execNop (s : State) : Host.Outcome State Fault Refusal := .next (complete s)

/-- `Effect(FRAME_START)`: `ROW <- 0` (40_command_engine R141). -/
def frameStartEffect (s : State) : State := s.withRow 0#16

/-- The completion step of `FRAME_START` (40_command_engine R141, R132). -/
def execFrameStart (s : State) : Host.Outcome State Fault Refusal := .next (complete (frameStartEffect s))

/-- The RAM words of a command's write set: each RAM with the number of its first words (40_command_engine R135). -/
def ramWriteSet (i : Instr) (c : ConfigRegs) : List (Ram × Nat) :=
  match i with
  | .nop => []
  | .frameStart => []
  | .filter => [(.wavg, nwin c)]
  | .sync => []
  | .demod => [(.ybuf, npix c), (.ibuf, npix c), (.qbuf, npix c)]
  | .color => [(.pix, npix c)]
  | .line => [(.wavg, nwin c), (.ybuf, npix c), (.ibuf, npix c), (.qbuf, npix c), (.pix, npix c)]

/-- Word `k` of a RAM is in a command's write set (40_command_engine R135). -/
def inRamWriteSet (i : Instr) (c : ConfigRegs) (r : Ram) (k : Nat) : Bool :=
  (ramWriteSet i c).any fun p => p.1 == r && decide (k < p.2)

/-- The command writes `ROW` (40_command_engine R135). -/
def writesRow (i : Instr) : Bool := i == .frameStart || i == .line

/-- The command writes `OFFSET`, `SYNC_POS` and `STATUS.ALIGN_MISS` (40_command_engine R135). -/
def writesSync (i : Instr) : Bool := i == .sync || i == .line

/-- The command writes `STATUS.ROW_LIMIT` (40_command_engine R135). -/
def writesRowLimit (i : Instr) : Bool := i == .line

/-- Whose turn is next, and the state with that turn taken off the agenda. With no turn listed it is the engine's: a
pending command completes eventually (40_command_engine R132; log entry 1). -/
def nextTurn (s : State) : Turn × State :=
  match s.agenda with
  | [] => (.engine, s)
  | t :: rest => (t, s.withAgenda rest)

/-- Put an accepted command where the engine's next turn finds it, and let the engine move next (log entry 2). -/
def placePending (i : Instr) (s : State) : State :=
  (accept i s).withAgenda (match s.agenda with
    | [] => []
    | t :: rest => .engine :: t :: rest)

end Sys2Proof.Machine
end

