-- ==== Sys2Proof/Machine/Flags.lean ====
section
/-! DEFINITION. The status, control and enable words, their bits, write-one-to-clear, and `irq`. -/

namespace Sys2Proof.Machine

/-- The number of an error code (60_exceptions R260). -/
def ErrCode.code : ErrCode → BitVec 4
  | .none => 0#4
  | .illegalCmd => 1#4
  | .busy => 2#4
  | .config => 3#4
  | .access => 4#4

/-- `STATUS` assembled from its bits; reserved bits read 0 (10_state R26). -/
def statusBits (busy done err miss limit : Bool) (code : BitVec 4) : Word :=
  (0#20 : BitVec 20) ++ code ++ (0#3 : BitVec 3) ++ BitVec.ofBool limit ++ BitVec.ofBool miss ++ BitVec.ofBool err
    ++ BitVec.ofBool done ++ BitVec.ofBool busy

/-- `STATUS` as it stands (10_state R26). -/
def statusWord (s : State) : Word := statusBits s.busy s.done s.err s.alignMiss s.rowLimit s.errCode.code

/-- `CTRL` as it reads: `SOFT_RESET` reads 0 (10_state R25). -/
def ctrlWord (s : State) : Word :=
  (0#29 : BitVec 29) ++ BitVec.ofBool s.pMode ++ BitVec.ofBool s.scanMode ++ (0#1 : BitVec 1)

/-- `IRQ_EN` as it reads (10_state R28). -/
def irqEnWord (s : State) : Word := (0#30 : BitVec 30) ++ BitVec.ofBool s.errIe ++ BitVec.ofBool s.doneIe

/-- `SYNC_POS` as it reads: the rise index above the fall index (10_state R32). -/
def syncPosWord (s : State) : Word := s.riseIdx ++ s.fallIdx

/-- A host write of `STATUS`: write-one-to-clear of `DONE`, `ERR` with `ERR_CODE`, and `ROW_LIMIT` (10_state R27). This
is how the host acknowledges a completion or an error (60_exceptions R269). -/
def clearStatus (w : Word) (s : State) : State :=
  { s with
    done := s.done && !w.getLsbD 1
    err := s.err && !w.getLsbD 2
    errCode := if w.getLsbD 2 then .none else s.errCode
    rowLimit := s.rowLimit && !w.getLsbD 4 }

/-- The level output `irq` (10_state R58, 60_exceptions R266). -/
def State.irq (s : State) : Bool := (s.done && s.doneIe) || (s.err && s.errIe)

/-- The level the block drives on an input of the platform's interrupt controller: `irq` on `IRQ_LINE`
(60_exceptions R267; log entry 13). -/
def State.drivesLine (s : State) (line : Nat) : Bool := s.irq && line == Config.irqLine

end Sys2Proof.Machine
end

