-- ==== Sys2Proof/Machine/Registers.lean ====
section
/-! DEFINITION. The address map (spec/20_memory.md R73) and the reads and writes of single registers
(spec/10_state.md R21 to R50). -/

namespace Sys2Proof.Machine

/-- The configuration registers by name (10_state R33 to R49). -/
inductive CfgReg where
  | baseline
  | rawShift
  | scale
  | winLen
  | tFall
  | tRise
  | lineLen
  | rowCeil
  | chunkW
  | carrierInc
  | phaseShift
  | gain
  | ampCeilI
  | ampCeilQ
  | yLo
  | yHi
  | iqLim
deriving DecidableEq, Repr

/-- What a word offset of the aperture reaches (20_memory R73). -/
inductive Loc where
  | id
  | lineMax
  | lutSize
  | ctrl
  | status
  | irqEn
  | cmd
  | row
  | offset
  | syncPos
  | cfg (r : CfgReg)
  | ram (r : Ram) (i : Nat)
  | reserved
deriving DecidableEq, Repr

/-- The register rows of the address map (20_memory R73). -/
def registerMap : List (Nat × Loc) :=
  [(0x000, .id), (0x004, .lineMax), (0x008, .lutSize), (0x00C, .ctrl), (0x010, .status), (0x014, .irqEn), (0x018, .cmd),
   (0x01C, .row), (0x020, .offset), (0x024, .syncPos),
   (0x040, .cfg .baseline), (0x044, .cfg .rawShift), (0x048, .cfg .scale), (0x04C, .cfg .winLen), (0x050, .cfg .tFall),
   (0x054, .cfg .tRise), (0x058, .cfg .lineLen), (0x05C, .cfg .rowCeil), (0x060, .cfg .chunkW), (0x064, .cfg .carrierInc),
   (0x068, .cfg .phaseShift), (0x06C, .cfg .gain), (0x070, .cfg .ampCeilI), (0x074, .cfg .ampCeilQ), (0x078, .cfg .yLo),
   (0x07C, .cfg .yHi), (0x080, .cfg .iqLim)]

/-- The RAM window an offset from `0x4000` on lies in, with the word index (20_memory R73, R75). -/
def ramAt (a : Nat) : Loc :=
  if a < 0x8000 then .ram .raw ((a - 0x4000) >>> 2)
  else if a < 0xC000 then .ram .wavg ((a - 0x8000) >>> 2)
  else if a < 0x10000 then .ram .ybuf ((a - 0xC000) >>> 2)
  else if a < 0x14000 then .ram .ibuf ((a - 0x10000) >>> 2)
  else if a < 0x18000 then .ram .qbuf ((a - 0x14000) >>> 2)
  else if a < 0x1C000 then .ram .pix ((a - 0x18000) >>> 2)
  else if a < 0x1C400 then .ram .lut ((a - 0x1C000) >>> 2)
  else .reserved

/-- What an offset that is a multiple of 4 reaches (20_memory R73, R74). -/
def locate (off : BitVec 17) : Loc :=
  if off.toNat < 0x4000 then ((registerMap.find? fun e => e.1 == off.toNat).map (·.2)).getD .reserved
  else ramAt off.toNat

/-- The offset of a location (20_memory R73, R107 of 30_encoding); reserved locations have no one offset. -/
def offsetOf (l : Loc) : Option Nat :=
  match l with
  | .ram r i => some (ramAddr r i)
  | .reserved => none
  | l => (registerMap.find? fun e => e.2 == l).map (·.1)

/-- The offset a bus address reaches in the aperture of a block at `base`, if it does. 20_memory R72 leaves this to the
platform; the mapping `base + off` is the model's (DESIGN CHOICE, log entry 13). -/
def apertureOffset (base addr : Nat) : Option (BitVec 17) :=
  if base ≤ addr ∧ addr < base + 0x20000 then some (BitVec.ofNat 17 (addr - base)) else none

/-- The offset a bus address reaches in this block, at the platform's `BLOCK_BASE` (20_memory R72; log entry 13). -/
def busOffset (addr : Nat) : Option (BitVec 17) := apertureOffset Config.blockBase addr

/-- A configuration register as it reads: its field, zero above (10_state R33 to R50). -/
def cfgRead (r : CfgReg) (c : ConfigRegs) : Word :=
  match r with
  | .baseline => c.baseline
  | .rawShift => c.rawShift.setWidth 32
  | .scale => c.scale
  | .winLen => c.winLen.setWidth 32
  | .tFall => c.tFall
  | .tRise => c.tRise
  | .lineLen => c.lineLen.setWidth 32
  | .rowCeil => c.rowCeil.setWidth 32
  | .chunkW => c.chunkW.setWidth 32
  | .carrierInc => c.carrierInc
  | .phaseShift => c.phaseShift
  | .gain => c.gain
  | .ampCeilI => c.ampCeilI
  | .ampCeilQ => c.ampCeilQ
  | .yLo => c.yLo
  | .yHi => c.yHi
  | .iqLim => c.iqLim

/-- A write of a configuration register: only its field is stored (10_state R33 to R50). -/
def cfgWrite (r : CfgReg) (w : Word) (c : ConfigRegs) : ConfigRegs :=
  match r with
  | .baseline => { c with baseline := w }
  | .rawShift => { c with rawShift := w.setWidth 4 }
  | .scale => { c with scale := w }
  | .winLen => { c with winLen := w.setWidth 9 }
  | .tFall => { c with tFall := w }
  | .tRise => { c with tRise := w }
  | .lineLen => { c with lineLen := w.setWidth 13 }
  | .rowCeil => { c with rowCeil := w.setWidth 16 }
  | .chunkW => { c with chunkW := w.setWidth 9 }
  | .carrierInc => { c with carrierInc := w }
  | .phaseShift => { c with phaseShift := w }
  | .gain => { c with gain := w }
  | .ampCeilI => { c with ampCeilI := w }
  | .ampCeilQ => { c with ampCeilQ := w }
  | .yLo => { c with yLo := w }
  | .yHi => { c with yHi := w }
  | .iqLim => { c with iqLim := w }

/-- How many low bits of a configuration register are its field (10_state R33 to R49). -/
def cfgWidth (r : CfgReg) : Nat :=
  match r with
  | .rawShift => 4
  | .winLen => 9
  | .chunkW => 9
  | .lineLen => 13
  | .rowCeil => 16
  | _ => 32

/-- The value of a location as the state holds it (10_state R21 to R50, 20_memory R74, R75). -/
def regRead (l : Loc) (s : State) : Word :=
  match l with
  | .id => Config.idWord
  | .lineMax => BitVec.ofNat 32 Config.lineMax
  | .lutSize => BitVec.ofNat 32 Config.lutSize
  | .ctrl => ctrlWord s
  | .status => statusWord s
  | .irqEn => irqEnWord s
  | .cmd => 0#32
  | .row => s.row.setWidth 32
  | .offset => s.offset.setWidth 32
  | .syncPos => syncPosWord s
  | .cfg r => cfgRead r s.cfg
  | .ram r i => readRam s.mem r i
  | .reserved => 0#32

end Sys2Proof.Machine
end

