-- ==== Sys2Proof/Machine/Bus.lean ====
section
/-! DEFINITION. The host's turn: bus transactions (spec/20_memory.md R70 to R75), the `CMD` write
(spec/40_command_engine.md R130), the hazards while busy (spec/70_reset_and_hazards.md R300, R301) and soft reset
(R291, R292). -/

namespace Sys2Proof.Machine

/-! ### Soft reset -/

/-- The RAM words of a write set one by one, as (RAM, index). -/
def ramWords (l : List (Ram × Nat)) : List (Ram × Nat) :=
  l.flatMap fun p => (List.range p.2).map fun k => (p.1, k)

/-- Every listed RAM word becomes `any`, each by a draw of its own counted from `n` (70_reset_and_hazards R292; log
entry 4). -/
def scramble (m : Memory) (n : Nat) : List (Ram × Nat) → Memory
  | [] => m
  | (r, k) :: rest => scramble (writeRam m r k (Config.freeWord n)) (n + 1) rest

/-- The RAM words that an abort of the pending command leaves unspecified (70_reset_and_hazards R292). -/
def abortedWords (s : State) : List (Ram × Nat) :=
  match s.busy, s.pending with
  | true, some i => ramWords (ramWriteSet i s.cfg)
  | _, _ => []

/-- Soft reset (70_reset_and_hazards R291): every register takes its reset value, nothing is pending, and an aborted
command's RAM words become `any` (R292). The RAMs otherwise keep their words. -/
def softReset (s : State) : State :=
  { State.reset with
    mem := scramble s.mem s.draws (abortedWords s)
    draws := s.draws + (abortedWords s).length
    agenda := s.agenda
    rdata := s.rdata }

/-! ### Writes -/

/-- A valid write of `CMD`: exactly one of busy, illegal, misconfigured, accepted, tested in this order
(40_command_engine R130). -/
def cmdWrite (w : Word) (s : State) : State :=
  if s.busy then raiseErr .busy s
  else
    match decodeWord w with
    | .error _ => raiseErr .illegalCmd s
    | .ok i => if legal i s then accept i s else raiseErr .config s

/-- A write that is dropped with `Err(BUSY)` while a command is pending (70_reset_and_hazards R300). -/
def unlessBusy (s t : State) : State := if s.busy then raiseErr .busy s else t

/-- `BusWrite(off, w)` by the location it reaches (10_state R25 to R50, 20_memory R74, R75, 70_reset_and_hazards R300). -/
def locWrite (l : Loc) (w : Word) (s : State) : State :=
  match l with
  | .id => s
  | .lineMax => s
  | .lutSize => s
  | .ctrl =>
    if w.getLsbD 0 then softReset s else unlessBusy s (s.withModes (w.getLsbD 1) (w.getLsbD 2))
  | .status => clearStatus w s
  | .irqEn => unlessBusy s (s.withEnables (w.getLsbD 0) (w.getLsbD 1))
  | .cmd => cmdWrite w s
  | .row => s
  | .offset => unlessBusy s (s.withOffset (w.setWidth 16))
  | .syncPos => s
  | .cfg r => unlessBusy s (s.withCfg (cfgWrite r w s.cfg))
  | .ram r i => unlessBusy s (s.withMem (writeRam s.mem r i w))
  | .reserved => s

/-! ### Reads -/

/-- The command whose write set is being written, if a command is pending (70_reset_and_hazards R301). -/
def inFlight (s : State) : Option Instr := if s.busy then s.pending else none

/-- The whole word at a location is in a command's write set (40_command_engine R135); `STATUS` is in it by single bits. -/
def locInWriteSet (i : Instr) (c : ConfigRegs) (l : Loc) : Bool :=
  match l with
  | .row => writesRow i
  | .offset => writesSync i
  | .syncPos => writesSync i
  | .ram r k => inRamWriteSet i c r k
  | _ => false

/-- A `STATUS` read with command `i` pending: the bits the command writes come from a draw, the others are exact
(70_reset_and_hazards R301; log entry 5). -/
def statusReadBusy (i : Instr) (d : Word) (s : State) : Word :=
  statusBits s.busy s.done s.err (if writesSync i then d.getLsbD 3 else s.alignMiss)
    (if writesRowLimit i then d.getLsbD 4 else s.rowLimit) s.errCode.code

/-- A read of this location takes a draw (70_reset_and_hazards R301). -/
def readsDraw (l : Loc) (s : State) : Bool :=
  match inFlight s with
  | none => false
  | some i => locInWriteSet i s.cfg l || (l == .status && writesSync i)

/-- The word that `BusRead` returns: the value held, or `any` in the pending command's write set
(70_reset_and_hazards R301; log entries 4 and 5). -/
def readValue (l : Loc) (s : State) : Word :=
  match inFlight s with
  | none => regRead l s
  | some i =>
    if locInWriteSet i s.cfg l then Config.freeWord s.draws
    else if l == .status then statusReadBusy i (Config.freeWord s.draws) s
    else regRead l s

/-- `BusRead(off)` by the location it reaches: the word goes to the host, and a draw taken is counted. -/
def locRead (l : Loc) (s : State) : State :=
  (s.withDraws (if readsDraw l s then s.draws + 1 else s.draws)).withRdata (readValue l s)

/-! ### Transactions -/

/-- A transaction is valid when its size is 4 and its offset a multiple of 4 (20_memory R70). -/
def validAccess (off : BitVec 17) (size : AccessSize) : Bool := size == .word && decide (off.toNat % 4 = 0)

/-- The host's turn (20_memory R70, R71, 60_exceptions R264). A transaction that is not valid only raises `Err(ACCESS)`,
and a read of that kind returns zero. -/
def hostTurn (t : Transaction) (s : State) : State :=
  match t with
  | .read off size =>
    if validAccess off size then locRead (locate off) s else (raiseErr .access s).withRdata 0#32
  | .write off size w =>
    if validAccess off size then locWrite (locate off) w s else raiseErr .access s

/-- The transaction `BusRead(off)` (20_memory R70). -/
def busRead (off : BitVec 17) : Transaction := .read off .word

/-- The transaction `BusWrite(off, w)` (20_memory R70). -/
def busWrite (off : BitVec 17) (w : Word) : Transaction := .write off .word w

/-- The state in which the very next step meets the command word `w`: a word that spells a command stands accepted at
the engine, any other stands as the host's next `CMD` write (log entry 2). -/
def placeWord (w : Option Word) (s : State) : State :=
  match w with
  | none => s
  | some x =>
    match decodeWord x with
    | .ok i => placePending i s
    | .error _ => s.withAgenda (.host (busWrite 0x018#17 x) :: s.agenda)

end Sys2Proof.Machine
end

