-- ==== Sys2Proof/Machine/Color.lean ====
section
/-! DEFINITION. COLOR (spec/43_color.md). -/

namespace Sys2Proof.Machine

/-- Row R of the hard-wired matrix, `cI` and `cQ` in units of 1/10000 (43_color R190). -/
def matrixR : Int × Int := (24563, 16190)

/-- Row G of the matrix (43_color R190). -/
def matrixG : Int × Int := (-2721, -6474)

/-- Row B of the matrix (43_color R190). -/
def matrixB : Int × Int := (-11070, 17046)

/-- `Channel(y, i, qq, a, b)` (43_color R192), exact before its one floor. -/
def channel (y i qq : ℚ) (ab : Int × Int) : Int :=
  clampZ ⌊255 * (y + (ab.1 : ℚ) / 10000 * i + (ab.2 : ℚ) / 10000 * qq)⌋ 0 255

/-- The eight bits of a channel value in 0 to 255. -/
def channelByte (n : Int) : BitVec 8 := BitVec.ofInt 8 n

/-- A pixel word `0xFFRRGGBB` (43_color R193). -/
def packPixel (r g b : Int) : Word := (0xFF#8 : BitVec 8) ++ channelByte r ++ channelByte g ++ channelByte b

/-- The pixel of a YIQ triple (43_color R191). -/
def pixelOf (y i qq : ℚ) : Word :=
  packPixel (channel y i qq matrixR) (channel y i qq matrixG) (channel y i qq matrixB)

/-- The pixel COLOR computes for chunk `c` from the stored words (43_color R191). -/
def colorPixel (s : State) (c : Nat) : Word :=
  pixelOf (q (readRam s.mem .ybuf c)) (q (readRam s.mem .ibuf c)) (q (readRam s.mem .qbuf c))

/-- `Effect(COLOR)` (43_color R191). -/
def colorEffect (s : State) : State := s.withMem (writeRange s.mem .pix (colorPixel s) (npix s.cfg))

/-- The completion step of `COLOR` (43_color R191, 40_command_engine R132). -/
def execColor (s : State) : Host.Outcome State Fault Refusal := .next (complete (colorEffect s))

end Sys2Proof.Machine
end

