-- ==== Sys2Proof/Machine/Demodulator.lean ====
section
/-! DEFINITION. DEMOD (spec/42_demodulator.md). -/

namespace Sys2Proof.Machine

/-- `SampleIndex(i)`: line-local, or frame-global with `CTRL.P_MODE = 1` (42_demodulator R161). -/
def sampleIndex (s : State) (i : Nat) : Nat :=
  if s.pMode then s.row.toNat * s.cfg.lineLen.toNat + i else i

/-- `PhaseIndex(p)` (42_demodulator R162); `/` and `%` of integers by a positive number are the floor division and its
remainder (00_scope R9). -/
def phaseIndex (c : ConfigRegs) (p : Nat) : Nat :=
  ((((p : Int) * 65536 + s32 c.phaseShift) * (u32 c.carrierInc : Int)) / 1099511627776 % 256).toNat

/-- The voltage of aligned sample `i` (42_demodulator R164). -/
def sampleVolt (s : State) (i : Nat) : ℚ := volt s.cfg (aligned s i)

/-- The sine of sample `i`, from the table (42_demodulator R163). -/
def sampleSin (s : State) (i : Nat) : ℚ := q (readRam s.mem .lut (phaseIndex s.cfg (sampleIndex s i)))

/-- The cosine of sample `i`: the entry 64 ahead (42_demodulator R163). -/
def sampleCos (s : State) (i : Nat) : ℚ :=
  q (readRam s.mem .lut ((phaseIndex s.cfg (sampleIndex s i) + 64) % 256))

/-- The aligned indices of chunk `c` (42_demodulator R160). -/
def chunkSamples (s : State) (c : Nat) : List Nat :=
  (List.range s.cfg.chunkW.toNat).map fun m => c * s.cfg.chunkW.toNat + m

/-- The voltages `v` of chunk `c` (42_demodulator R164). -/
def chunkVolts (s : State) (c : Nat) : List ℚ := (chunkSamples s c).map (sampleVolt s)

/-- The contributions `cI` of chunk `c`, with the sine (42_demodulator R164). -/
def chunkI (s : State) (c : Nat) : List ℚ :=
  (chunkSamples s c).map fun i => sampleVolt s i * sampleSin s i * q s.cfg.gain

/-- The contributions `cQ` of chunk `c`, with the cosine (42_demodulator R164). -/
def chunkQ (s : State) (c : Nat) : List ℚ :=
  (chunkSamples s c).map fun i => sampleVolt s i * sampleCos s i * q s.cfg.gain

/-- The gate of a list of contributions against a ceiling (42_demodulator R166). -/
def gate (xs : List ℚ) (ceil : ℚ) : ℚ := min (divQ (maxOf xs - minOf xs) ceil) 1

/-- The normalised luma (42_demodulator R167). -/
def normLuma (y lo hi : ℚ) : ℚ := divQ (clampQ y lo hi - lo) (hi - lo)

/-- The normalised and gated chroma; the gating multiply comes last (42_demodulator R167). -/
def normChroma (raw lim amp : ℚ) : ℚ := divQ (clampQ raw (-lim) lim) lim * amp

/-- `y` of chunk `c` (42_demodulator R165, R167). -/
def demodY (s : State) (c : Nat) : ℚ := normLuma (mean (chunkVolts s c)) (q s.cfg.yLo) (q s.cfg.yHi)

/-- `I` of chunk `c` (42_demodulator R165 to R167). -/
def demodI (s : State) (c : Nat) : ℚ :=
  normChroma (mean (chunkI s c)) (q s.cfg.iqLim) (gate (chunkI s c) (q s.cfg.ampCeilI))

/-- `Q` of chunk `c` (42_demodulator R165 to R167). -/
def demodQ (s : State) (c : Nat) : ℚ :=
  normChroma (mean (chunkQ s c)) (q s.cfg.iqLim) (gate (chunkQ s c) (q s.cfg.ampCeilQ))

/-- The memory after the stores of DEMOD (42_demodulator R168). -/
def demodMem (s : State) : Memory :=
  writeRange (writeRange (writeRange s.mem .ybuf (fun c => fx (demodY s c)) (npix s.cfg))
    .ibuf (fun c => fx (demodI s c)) (npix s.cfg)) .qbuf (fun c => fx (demodQ s c)) (npix s.cfg)

/-- `Effect(DEMOD)` (42_demodulator R160). -/
def demodEffect (s : State) : State := s.withMem (demodMem s)

/-- The completion step of `DEMOD` (42_demodulator R160, 40_command_engine R132). -/
def execDemod (s : State) : Host.Outcome State Fault Refusal := .next (complete (demodEffect s))

end Sys2Proof.Machine
end

