-- ==== Sys2Proof/Machine/Reconstructor.lean ====
section
/-! DEFINITION. FILTER and SYNC (spec/41_reconstructor.md). -/

namespace Sys2Proof.Machine

/-! ### FILTER -/

/-- The voltages of window `j` (41_reconstructor R143). -/
def windowVolts (s : State) (j : Nat) : List ℚ :=
  (List.range s.cfg.winLen.toNat).map fun m => volt s.cfg (readRam s.mem .raw (j * s.cfg.winLen.toNat + m))

/-- The word FILTER stores for window `j`: the average, floored and saturated once (41_reconstructor R143, R144). -/
def windowAverage (s : State) (j : Nat) : Word := fx (mean (windowVolts s j))

/-- `Effect(FILTER)` (41_reconstructor R143). -/
def filterEffect (s : State) : State := s.withMem (writeRange s.mem .wavg (windowAverage s) (nwin s.cfg))

/-- The completion step of `FILTER` (41_reconstructor R143, 40_command_engine R132). -/
def execFilter (s : State) : Host.Outcome State Fault Refusal := .next (complete (filterEffect s))

/-! ### SYNC -/

/-- `Fall(j)`: the average is below the low threshold, strictly (41_reconstructor R150). -/
def isFall (s : State) (j : Nat) : Bool := decide (s32 (readRam s.mem .wavg j) < s32 s.cfg.tFall)

/-- `Rise(j)`: the average is above the high threshold, strictly (41_reconstructor R150). -/
def isRise (s : State) (j : Nat) : Bool := decide (s32 s.cfg.tRise < s32 (readRam s.mem .wavg j))

/-- `Falls`, in rising order (41_reconstructor R150). -/
def falls (s : State) : List Nat := (List.range (nwin s.cfg)).filter fun j => isFall s j

/-- The fall window `f`: the first fall in a forward scan, the last in a reverse scan (41_reconstructor R150). -/
def fallWindow (s : State) : Option Nat := if s.scanMode then (falls s).max? else (falls s).min?

/-- `Rises` after the fall window, in rising order (41_reconstructor R150). -/
def rises (s : State) (f : Nat) : List Nat := (List.range (nwin s.cfg)).filter fun j => decide (f < j) && isRise s j

/-- `Miss(f?)` (41_reconstructor R151). -/
def syncMiss (f : Option Nat) (s : State) : State :=
  s.withSync 0#16 (match f with
    | some j => BitVec.ofNat 16 j
    | none => 0xFFFF#16) 0xFFFF#16 true

/-- `Found(f, r)` (41_reconstructor R152). -/
def syncFound (f r : Nat) (s : State) : State :=
  s.withSync (BitVec.ofNat 16 (r * s.cfg.winLen.toNat)) (BitVec.ofNat 16 f) (BitVec.ofNat 16 r) false

/-- `Effect(SYNC)` (41_reconstructor R150). -/
def syncEffect (s : State) : State :=
  match fallWindow s with
  | none => syncMiss none s
  | some f =>
    match (rises s f).min? with
    | none => syncMiss (some f) s
    | some r => syncFound f r s

/-- The completion step of `SYNC` (41_reconstructor R150, 40_command_engine R132). -/
def execSync (s : State) : Host.Outcome State Fault Refusal := .next (complete (syncEffect s))

end Sys2Proof.Machine
end

