-- ==== Sys2Proof/Machine/Line.lean ====
section
/-! DEFINITION. LINE, the whole-scanline command (spec/44_line.md). -/

namespace Sys2Proof.Machine

/-- The four stages, each reading the state the one before left (44_line R240). -/
def lineStages (s : State) : State := colorEffect (demodEffect (syncEffect (filterEffect s)))

/-- `Effect(LINE)`: the row check, the stages, then `ROW <- ROW + 1` (44_line R240 to R242). -/
def lineEffect (s : State) : State :=
  if s.cfg.rowCeil.toNat ≤ s.row.toNat then s.withRowLimit
  else (lineStages s).withRow (s.row + 1#16)

/-- The completion step of `LINE` (44_line R240, 40_command_engine R132). -/
def execLine (s : State) : Host.Outcome State Fault Refusal := .next (complete (lineEffect s))

end Sys2Proof.Machine
end

