-- ==== Sys2Proof/Machine/Dispatch.lean ====
section
/-! DEFINITION. The meaning of every command: its completion step (spec/40_command_engine.md R132). -/

namespace Sys2Proof.Machine

/-- The completion step of each command. -/
def exec (i : Instr) (s : State) : Host.Outcome State Fault Refusal :=
  match i with
  | .nop => Sys2Proof.Machine.execNop s
  | .frameStart => Sys2Proof.Machine.execFrameStart s
  | .filter => Sys2Proof.Machine.execFilter s
  | .sync => Sys2Proof.Machine.execSync s
  | .demod => Sys2Proof.Machine.execDemod s
  | .color => Sys2Proof.Machine.execColor s
  | .line => Sys2Proof.Machine.execLine s

end Sys2Proof.Machine
end

