-- ==== Sys2Proof/Machine/Step.lean ====
section
/-! DEFINITION. One step of the block: the next turn of the host or of the engine (spec/00_scope.md R6). -/

namespace Sys2Proof.Machine

/-- The engine's turn: the completion step of the pending command; without one the engine takes no step
(40_command_engine R132, 60_exceptions R276). -/
def engineTurn (s : State) : Host.Outcome State Fault Refusal :=
  if s.busy then
    match s.pending with
    | some i => exec i s
    | none => .fault .noPendingCommand
  else .next s

/-- One step: the turn the agenda names, else the engine's (00_scope R6, 20_memory R82; log entry 1). -/
def step (s : State) : Host.Outcome State Fault Refusal :=
  match nextTurn s with
  | (.host t, s') => .next (hostTurn t s')
  | (.engine, s') => engineTurn s'

/-- The state in which the very next step runs the command whose bits are `w` (log entry 2). -/
def State.withFetchWord (s : State) (nbits w : Nat) : State := placeWord (tableWord nbits w) s

end Sys2Proof.Machine
end

