-- ==== Sys2Proof/Machine/Script.lean ====
section
/-! DEFINITION. The host-script notation (spec/30_encoding.md R107, R108) as lists of turns. -/

namespace Sys2Proof.Machine

/-- A line of a host script (30_encoding R107, R108). -/
inductive ScriptLine where
  /-- `wr OFF, W`. -/
  | wr (off : BitVec 17) (w : Word)
  /-- `rd OFF`. -/
  | rd (off : BitVec 17)
  /-- `wrb OFF, W`. -/
  | wrb (off : BitVec 17) (w : Word)
  /-- `wrh OFF, W`. -/
  | wrh (off : BitVec 17) (w : Word)
  /-- `rd OFF -> EXPECT`; the expectation has no bus effect. -/
  | rdExpect (off : BitVec 17) (expect : Word)
  /-- `wr NAME[i], W`. -/
  | wrRam (r : Ram) (i : Nat) (w : Word)
  /-- `rd NAME[i]`. -/
  | rdRam (r : Ram) (i : Nat)
  /-- `cmd MNEMONIC`. -/
  | cmd (i : Instr)
  /-- `wait`; `polls` reads answer `BUSY = 1` before the pending command completes (log entry 14). -/
  | wait (polls : Nat)
  /-- `clr`. -/
  | clr
  /-- `wrq NAME, x`. -/
  | wrq (off : BitVec 17) (x : ℚ)
  /-- `reset`. -/
  | reset
  /-- `run MNEMONIC`. -/
  | run (i : Instr) (polls : Nat)

/-- The turns of `wait`: the polls, the engine's completion, and the poll that ends the loop (log entry 14). -/
def waitTurns (polls : Nat) : List Turn :=
  List.replicate polls (.host (busRead 0x010#17)) ++ [.engine, .host (busRead 0x010#17)]

/-- `clr`: clears `DONE`, `ERR` and `ROW_LIMIT` (30_encoding R108). -/
def clrTurn : Turn := .host (busWrite 0x010#17 0x00000016#32)

/-- `cmd MNEMONIC` (30_encoding R108). -/
def cmdTurn (i : Instr) : Turn := .host (busWrite 0x018#17 (encode i))

/-- The turns a script line stands for (30_encoding R107, R108). The engine's turn stands only in `wait`, after its
polls; 40_command_engine R132 leaves open where a completion falls, so this place is the model's choice for one line
(DESIGN CHOICE, log entry 14), and `expandScript` gives the places between lines. -/
def expandLine (l : ScriptLine) : List Turn :=
  match l with
  | .wr off w => [.host (busWrite off w)]
  | .rd off => [.host (busRead off)]
  | .wrb off w => [.host (.write off .byte w)]
  | .wrh off w => [.host (.write off .half w)]
  | .rdExpect off _ => [.host (busRead off)]
  | .wrRam r i w => [.host (busWrite (BitVec.ofNat 17 (ramAddr r i)) w)]
  | .rdRam r i => [.host (busRead (BitVec.ofNat 17 (ramAddr r i)))]
  | .cmd i => [cmdTurn i]
  | .wait polls => waitTurns polls
  | .clr => [clrTurn]
  | .wrq off x => [.host (busWrite off (fx x))]
  | .reset => [.host (busWrite 0x00C#17 0x00000001#32)]
  | .run i polls => clrTurn :: cmdTurn i :: waitTurns polls

/-- The turns of a script. Where completions fall between the lines is open (40_command_engine R132; 95_test_vectors P4
has a branch for each place), so each line comes with a flag: the engine takes a turn just before that line when it is
true. That the place is an argument is the model's choice (DESIGN CHOICE, log entry 14). A turn with nothing pending does
nothing. A completion in the middle of `run`, before its `cmd`, is reached by writing out the three lines of `run`. -/
def expandScript (ls : List (Bool × ScriptLine)) : List Turn :=
  ls.flatMap fun p => (if p.1 then [.engine] else []) ++ expandLine p.2

end Sys2Proof.Machine
end

