-- ==== Sys2Proof/Safety.lean ====
section
/-! DEFINITION. What a good state and a safe run are, in the terms the statements use. -/

namespace Sys2Proof.Machine

/-- The engine's command is one whose legality predicates hold (40_command_engine R130, R133). -/
def EngineOk (s : State) : Prop := s.busy = true → ∃ i, s.pending = some i ∧ legal i s = true

/-- `ERR_CODE` is `NONE` exactly while `ERR = 0` (60_exceptions R260, R262). -/
def ErrorOk (s : State) : Prop := s.errCode = .none ↔ s.err = false

/-- `SYNC_POS` holds window indices of the RAM or `0xFFFF` for none, a rise only after a fall, and `ALIGN_MISS` only
without a rise (10_state R32, 41_reconstructor R151, R152). -/
def SyncOk (s : State) : Prop :=
  (s.fallIdx = 0xFFFF#16 ∨ s.fallIdx.toNat < Config.lineMax) ∧
  (s.riseIdx = 0xFFFF#16 ∨ (s.fallIdx.toNat < s.riseIdx.toNat ∧ s.riseIdx.toNat < Config.lineMax)) ∧
  (s.alignMiss = true → s.riseIdx = 0xFFFF#16)

/-- A good state: memory in its canonical form, a legal command at the engine, an error code exactly with an error, and
a meaningful `SYNC_POS`. -/
def StateOk (s : State) : Prop := s.mem.wf ∧ EngineOk s ∧ ErrorOk s ∧ SyncOk s

/-- A soft reset: a valid write of `CTRL` with bit 0 set (70_reset_and_hazards R291). -/
def isSoftReset (t : Transaction) : Bool :=
  match t with
  | .read _ _ => false
  | .write off size w => off == 0x00C#17 && size == .word && w.getLsbD 0

/-- The state after the host has made these transactions, with no turn of the engine between them. -/
def afterHost (ts : List Transaction) (s : State) : State := ts.foldl (fun x t => hostTurn t x) s

/-- A run of `k` steps is safe when it ends in a state, not in a fault or a refusal. -/
def SafeRun (k : Nat) (s : State) : Prop := ∃ t, Sys2Proof.core.run k s = .next t

end Sys2Proof.Machine
end

