-- ==== Sys2Proof/Certificates/Slice0/Obligations.lean ====
section
/-! DEFINITION. The statements for the provers. The formulas of the rules are written out here a second time, under
`Sys2Proof.Rule`, as the rules write them, so that the statements about results do not repeat the model's own functions. -/

namespace Sys2Proof.Rule

open Sys2Proof.Machine

/-- `q(w)` (00_scope R11). -/
def real (w : Word) : ℚ := (w.toInt : ℚ) / 2 ^ 16

/-- `fx(x)` (00_scope R11): floor to a multiple of 2^-16, saturate. -/
def fixed (x : ℚ) : Word := BitVec.ofInt 32 (max (-(2 ^ 31)) (min ⌊x * 2 ^ 16⌋ (2 ^ 31 - 1)))

/-- `clamp(x, lo, hi)` (00_scope R10). -/
def clip (x lo hi : ℚ) : ℚ := min (max x lo) hi

/-- `NWIN = LINE_LEN div WIN_LEN` (00_scope R12). -/
def windows (s : State) : Nat := s.cfg.lineLen.toNat / s.cfg.winLen.toNat

/-- `NPIX = LINE_LEN div CHUNK_W` (00_scope R12). -/
def pixels (s : State) : Nat := s.cfg.lineLen.toNat / s.cfg.chunkW.toNat

/-- `volt(RAW[k])` (41_reconstructor R142). -/
def volt (s : State) (k : Nat) : ℚ :=
  ((s.cfg.baseline.toInt : ℚ) - (((readRam s.mem .raw k).toNat % 2 ^ 16 / 2 ^ s.cfg.rawShift.toNat : Nat) : ℚ))
    / real s.cfg.scale

/-- The mean of `f` over `N` samples from `b` on (00_scope R10). -/
def meanOver (f : Nat → ℚ) (b N : Nat) : ℚ := (∑ m ∈ Finset.range N, f (b + m)) / N

/-- The average voltage of window `j` (41_reconstructor R143). -/
def windowMean (s : State) (j : Nat) : ℚ := meanOver (volt s) (j * s.cfg.winLen.toNat) s.cfg.winLen.toNat

/-- The voltage of aligned sample `i` (41_reconstructor R154). -/
def alignedVolt (s : State) (i : Nat) : ℚ := volt s ((i + s.offset.toNat) % s.cfg.lineLen.toNat)

/-- `SampleIndex(i)` (42_demodulator R161). -/
def sampleNumber (s : State) (i : Nat) : Nat :=
  if s.pMode then s.row.toNat * s.cfg.lineLen.toNat + i else i

/-- The carrier phase of sample index `p` in cycles (42_demodulator R162). -/
def cycles (c : ConfigRegs) (p : Nat) : ℚ := (p + real c.phaseShift) * (c.carrierInc.toNat : ℚ) / 2 ^ 32

/-- The table index of sample `i`: the phase in 256ths of a cycle, floored (42_demodulator R162). -/
def tableIndex (s : State) (i : Nat) : Nat := (⌊256 * cycles s.cfg (sampleNumber s i)⌋ % 256).toNat

/-- The I contribution of aligned sample `i` (42_demodulator R163, R164). -/
def contribI (s : State) (i : Nat) : ℚ :=
  alignedVolt s i * real (readRam s.mem .lut (tableIndex s i)) * real s.cfg.gain

/-- The Q contribution of aligned sample `i` (42_demodulator R163, R164). -/
def contribQ (s : State) (i : Nat) : ℚ :=
  alignedVolt s i * real (readRam s.mem .lut ((tableIndex s i + 64) % 256)) * real s.cfg.gain

/-- `lo` and `hi` are the least and the greatest of `f` over `N` samples from `b` on (00_scope R10). -/
def Extremes (f : Nat → ℚ) (b N : Nat) (lo hi : ℚ) : Prop :=
  IsLeast (f '' Set.Ico b (b + N)) lo ∧ IsGreatest (f '' Set.Ico b (b + N)) hi

/-- The stored luma of chunk `c` (42_demodulator R165, R167, R168). -/
def luma (s : State) (c : Nat) : Word :=
  fixed ((clip (meanOver (alignedVolt s) (c * s.cfg.chunkW.toNat) s.cfg.chunkW.toNat) (real s.cfg.yLo) (real s.cfg.yHi)
    - real s.cfg.yLo) / (real s.cfg.yHi - real s.cfg.yLo))

/-- The stored chroma of chunk `c` for contributions `f` whose spread is `hi - lo` (42_demodulator R165 to R168). -/
def chroma (s : State) (c : Nat) (f : Nat → ℚ) (ceil : Word) (lo hi : ℚ) : Word :=
  fixed (clip (meanOver f (c * s.cfg.chunkW.toNat) s.cfg.chunkW.toNat) (-real s.cfg.iqLim) (real s.cfg.iqLim)
    / real s.cfg.iqLim * min ((hi - lo) / real ceil) 1)

/-- One channel as the integer formula of 43_color R192. -/
def channel (a b : Int) (y i qq : Word) : Int :=
  min (max ((255 * (10000 * y.toInt + a * i.toInt + b * qq.toInt)) / (10000 * 2 ^ 16)) 0) 255

/-- The offset of each configuration register (20_memory R73). -/
def configOffset : CfgReg → BitVec 17
  | .baseline => 0x040#17
  | .rawShift => 0x044#17
  | .scale => 0x048#17
  | .winLen => 0x04C#17
  | .tFall => 0x050#17
  | .tRise => 0x054#17
  | .lineLen => 0x058#17
  | .rowCeil => 0x05C#17
  | .chunkW => 0x060#17
  | .carrierInc => 0x064#17
  | .phaseShift => 0x068#17
  | .gain => 0x06C#17
  | .ampCeilI => 0x070#17
  | .ampCeilQ => 0x074#17
  | .yLo => 0x078#17
  | .yHi => 0x07C#17
  | .iqLim => 0x080#17

/-- The width of each configuration register's field (10_state R33 to R49). -/
def configWidth : CfgReg → Nat
  | .baseline => 32
  | .rawShift => 4
  | .scale => 32
  | .winLen => 9
  | .tFall => 32
  | .tRise => 32
  | .lineLen => 13
  | .rowCeil => 16
  | .chunkW => 9
  | .carrierInc => 32
  | .phaseShift => 32
  | .gain => 32
  | .ampCeilI => 32
  | .ampCeilQ => 32
  | .yLo => 32
  | .yHi => 32
  | .iqLim => 32

/-- The field each configuration register holds, unsigned (10_state R33 to R49). -/
def configField (c : ConfigRegs) : CfgReg → Nat
  | .baseline => c.baseline.toNat
  | .rawShift => c.rawShift.toNat
  | .scale => c.scale.toNat
  | .winLen => c.winLen.toNat
  | .tFall => c.tFall.toNat
  | .tRise => c.tRise.toNat
  | .lineLen => c.lineLen.toNat
  | .rowCeil => c.rowCeil.toNat
  | .chunkW => c.chunkW.toNat
  | .carrierInc => c.carrierInc.toNat
  | .phaseShift => c.phaseShift.toNat
  | .gain => c.gain.toNat
  | .ampCeilI => c.ampCeilI.toNat
  | .ampCeilQ => c.ampCeilQ.toNat
  | .yLo => c.yLo.toNat
  | .yHi => c.yHi.toNat
  | .iqLim => c.iqLim.toNat

/-- The base offset of each RAM window (20_memory R73). -/
def ramBase : Ram → Nat
  | .raw => 0x04000
  | .wavg => 0x08000
  | .ybuf => 0x0C000
  | .ibuf => 0x10000
  | .qbuf => 0x14000
  | .pix => 0x18000
  | .lut => 0x1C000

/-- How many words each RAM has (20_memory R73). -/
def ramCount : Ram → Nat
  | .raw => 4096
  | .wavg => 4096
  | .ybuf => 4096
  | .ibuf => 4096
  | .qbuf => 4096
  | .pix => 4096
  | .lut => 256

/-- The offset of word `i` of a RAM (20_memory R75). -/
def ramOffset (r : Ram) (i : Nat) : BitVec 17 := BitVec.ofNat 17 (ramBase r + 4 * i)

/-- The valid host write `t` clears a status bit or an enable that holds `irq` up, as 10_state R58 says it: a `STATUS`
write with the bit of a `DONE` or an `ERR` that is 1 (R27), an idle `IRQ_EN` write that takes an enable away (R28), or a
soft reset (70_reset_and_hazards R291). -/
def ClearsIrqSource (t : Transaction) (s : State) : Prop :=
  ∃ w : Word,
    (t = busWrite 0x010#17 w ∧ (w.getLsbD 1 = true ∧ s.done = true ∨ w.getLsbD 2 = true ∧ s.err = true)) ∨
    (t = busWrite 0x014#17 w ∧ s.busy = false ∧
      (w.getLsbD 0 = false ∧ s.doneIe = true ∨ w.getLsbD 1 = false ∧ s.errIe = true)) ∨
    (t = busWrite 0x00C#17 w ∧ w.getLsbD 0 = true)

/-- An offset outside the first `n` words of a RAM. -/
def Outside (r : Ram) (n a : Nat) : Prop := ∀ j < n, a < ramAddr r j ∨ ramAddr r j + 4 ≤ a

/-- The state with `Err(code)` raised and nothing else changed (60_exceptions R262). -/
def raised (c : ErrCode) (s : State) : State :=
  { s with err := true, errCode := if s.err then s.errCode else c }

/-- `WAVG[j]` is below the low threshold (41_reconstructor R150). -/
def Fall (s : State) (j : Nat) : Prop := (readRam s.mem .wavg j).toInt < s.cfg.tFall.toInt

/-- `WAVG[j]` is above the high threshold (41_reconstructor R150). -/
def Rise (s : State) (j : Nat) : Prop := s.cfg.tRise.toInt < (readRam s.mem .wavg j).toInt

/-- `f` is the fall window: the first fall in a forward scan, the last in a reverse scan (41_reconstructor R150). -/
def FallWindow (s : State) (f : Nat) : Prop :=
  f < windows s ∧ Fall s f ∧
    (s.scanMode = false → ∀ j < f, ¬ Fall s j) ∧ (s.scanMode = true → ∀ j, f < j → j < windows s → ¬ Fall s j)

/-- `r` is the rise window after `f`: the first rise strictly after it (41_reconstructor R150). -/
def RiseWindow (s : State) (f r : Nat) : Prop :=
  f < r ∧ r < windows s ∧ Rise s r ∧ ∀ j, f < j → j < r → ¬ Rise s j

end Sys2Proof.Rule

open Sys2Proof Sys2Proof.Machine

/-! ### Reset and identity -/

/-- 10_state R60, power-on column: what every register reads after power-on, and the engine and `irq`. -/
def Obligations.PowerOnRegisterValues : Prop :=
  (∀ e ∈ [(Loc.id, 0x41563248#32), (.lineMax, 0x1000#32), (.lutSize, 0x100#32), (.ctrl, 2#32), (.status, 0#32),
      (.irqEn, 0#32), (.cmd, 0#32), (.row, 0#32), (.offset, 0#32), (.syncPos, 0xFFFFFFFF#32), (.cfg .baseline, 0#32),
      (.cfg .rawShift, 4#32), (.cfg .scale, 0#32), (.cfg .winLen, 16#32), (.cfg .tFall, 0xFFD80000#32),
      (.cfg .tRise, 0xFFFB0000#32), (.cfg .lineLen, 0#32), (.cfg .rowCeil, 0#32), (.cfg .chunkW, 8#32),
      (.cfg .carrierInc, 0#32), (.cfg .phaseShift, 0#32), (.cfg .gain, 0x20000#32), (.cfg .ampCeilI, 0#32),
      (.cfg .ampCeilQ, 0#32), (.cfg .yLo, 0#32), (.cfg .yHi, 0#32), (.cfg .iqLim, 0#32)],
    regRead e.1 State.reset = e.2) ∧
  State.reset.busy = false ∧ State.reset.pending = none ∧ State.reset.irq = false

/-- 70_reset_and_hazards R291, R292: a soft reset gives every register its reset value, drops the pending command, and
leaves every RAM byte alone outside the RAM words an aborted command writes. Those words become draws: the form
`Config.freeWord` is the model's (log entry 4). -/
def Obligations.SoftResetRestoresRegistersAndScramblesAborted : Prop :=
  ∀ (s : State) (w : Word), w.getLsbD 0 = true →
    ∃ m n, hostTurn (busWrite 0x00C#17 w) s =
        { State.reset with mem := m, draws := n, agenda := s.agenda, rdata := s.rdata } ∧
      (∀ a, (∀ i, s.busy = true → s.pending = some i → ∀ r k, inRamWriteSet i s.cfg r k = true →
          a < ramAddr r k ∨ ramAddr r k + 4 ≤ a) → readByte m a = readByte s.mem a) ∧
      ∀ i, s.busy = true → s.pending = some i → ∃ draw : Ram → Nat → Nat,
        (∀ r k, inRamWriteSet i s.cfg r k = true → k < r.words →
          s.draws ≤ draw r k ∧ draw r k < n ∧ readRam m r k = Config.freeWord (draw r k)) ∧
        ∀ r k r' k', inRamWriteSet i s.cfg r k = true → inRamWriteSet i s.cfg r' k' = true →
          draw r k = draw r' k' → r = r' ∧ k = k'

/-- 70_reset_and_hazards R293. -/
def Obligations.IdleSoftResetKeepsRamsAndRepeats : Prop :=
  ∀ (s : State) (w w' : Word), w.getLsbD 0 = true → w'.getLsbD 0 = true →
    (s.busy = false → (hostTurn (busWrite 0x00C#17 w) s).mem = s.mem) ∧
    hostTurn (busWrite 0x00C#17 w') (hostTurn (busWrite 0x00C#17 w) s) = hostTurn (busWrite 0x00C#17 w) s

/-- 70_reset_and_hazards R294: after either reset NOP and FRAME_START are accepted and the others raise `Err(CONFIG)`. -/
def Obligations.AfterResetOnlyNopAndFrameStartAccepted : Prop :=
  ∀ (t : State), (t = State.reset ∨ ∃ s w, w.getLsbD 0 = true ∧ t = hostTurn (busWrite 0x00C#17 w) s) →
    t.cfg.lineLen = 0#13 ∧ t.cfg.scale = 0#32 ∧ t.cfg.ampCeilI = 0#32 ∧ t.cfg.ampCeilQ = 0#32 ∧ t.cfg.yHi = 0#32 ∧
    t.cfg.yLo = 0#32 ∧ t.cfg.iqLim = 0#32 ∧
    lLine t.cfg = false ∧ lScale t.cfg = false ∧ lAmp t.cfg = false ∧ lY t.cfg = false ∧ lIq t.cfg = false ∧
    ∀ i, hostTurn (busWrite 0x018#17 (encode i)) t =
      if i = .nop ∨ i = .frameStart then { t with busy := true, pending := some i } else Rule.raised .config t

/-! ### Encoding -/

/-- 30_encoding R102, R103: a word spells a command exactly when it is that command's word. -/
def Obligations.DecodeEncodeAgree : Prop :=
  (∀ w i, decodeWord w = .ok i ↔ w = encode i) ∧
  (∀ w, (∃ i, decodeWord w = .ok i) ↔ w.toNat < 7) ∧
  (∀ i rest, decodeBytes (encodeBytes i ++ rest) = .ok (i, rest)) ∧
  ∀ l i rest, decodeBytes l = .ok (i, rest) → l = encodeBytes i ++ rest

/-- 30_encoding R102: three words of the table decode to their commands, the first word past the table to none. -/
def Obligations.TableWordsDecode : Prop :=
  decodeTableWord 32 0x00000000 = some .nop ∧ decodeTableWord 32 0x00000003 = some .sync ∧
  decodeTableWord 32 0x00000006 = some .line ∧ decodeTableWord 32 0x00000007 = none ∧
  decodeTableWord 32 0x00000100 = none

/-! ### The engine -/

/-- 40_command_engine R134: the legality table, with every predicate written out, and where it is checked. -/
def Obligations.LegalityTable : Prop :=
  ∀ s : State,
    let line := 1 ≤ s.cfg.lineLen.toNat ∧ s.cfg.lineLen.toNat ≤ 4096
    let win := 1 ≤ s.cfg.winLen.toNat ∧ s.cfg.winLen.toNat ≤ 256
    let chunk := 1 ≤ s.cfg.chunkW.toNat ∧ s.cfg.chunkW.toNat ≤ 256
    let scale := s.cfg.scale.toInt ≠ 0
    let amp := 0 < s.cfg.ampCeilI.toInt ∧ 0 < s.cfg.ampCeilQ.toInt
    let y := s.cfg.yLo.toInt < s.cfg.yHi.toInt
    let iq := 0 < s.cfg.iqLim.toInt
    let off := s.offset.toNat < s.cfg.lineLen.toNat
    legal .nop s = true ∧ legal .frameStart s = true ∧
    (legal .filter s = true ↔ line ∧ win ∧ scale) ∧
    (legal .sync s = true ↔ line ∧ win) ∧
    (legal .demod s = true ↔ line ∧ chunk ∧ scale ∧ amp ∧ y ∧ iq ∧ off) ∧
    (legal .color s = true ↔ line ∧ chunk) ∧
    (legal .line s = true ↔ line ∧ win ∧ chunk ∧ scale ∧ amp ∧ y ∧ iq) ∧
    ∀ i, s.busy = false → hostTurn (busWrite 0x018#17 (encode i)) s =
      if legal i s then { s with busy := true, pending := some i } else Rule.raised .config s

/-- 40_command_engine R130, R131: what a `CMD` write does, the four cases in their order. -/
def Obligations.CommandWriteOutcome : Prop :=
  ∀ (s : State) (w : Word),
    (s.busy = true → hostTurn (busWrite 0x018#17 w) s = Rule.raised .busy s) ∧
    (s.busy = false → 7 ≤ w.toNat → hostTurn (busWrite 0x018#17 w) s = Rule.raised .illegalCmd s) ∧
    (∀ i, s.busy = false → w = encode i → legal i s = false →
      hostTurn (busWrite 0x018#17 w) s = Rule.raised .config s) ∧
    (∀ i, s.busy = false → w = encode i → legal i s = true →
      hostTurn (busWrite 0x018#17 w) s = { s with busy := true, pending := some i })

/-- 40_command_engine R132, 00_scope R6, 60_exceptions R276: whose turn it is and what the turn does. The agenda is the
model's form of the order of turns (log entries 1, 2). -/
def Obligations.StepTakesTheNextTurn : Prop :=
  ∀ (s : State) (rest : List Turn),
    (∀ t, s.agenda = .host t :: rest → step s = .next (hostTurn t { s with agenda := rest })) ∧
    (∀ i, s.agenda = .engine :: rest → s.busy = true → s.pending = some i →
      step s = exec i { s with agenda := rest }) ∧
    (∀ i, s.agenda = [] → s.busy = true → s.pending = some i → step s = exec i s) ∧
    (s.agenda = .engine :: rest → s.busy = false → step s = .next { s with agenda := rest }) ∧
    (s.agenda = [] → s.busy = false → step s = .next s)

/-- The step after a command word is placed runs that command (the model's form, log entry 2). -/
def Obligations.StepRunsThePlacedCommand : Prop :=
  ∀ (s : State) (i : Instr),
    step (s.withFetchWord 32 (encode i).toNat) = exec i { s with busy := true, pending := some i }

/-- 40_command_engine R133: while a command is pending, host transactions other than a soft reset leave the command
and everything an effect reads as they were at acceptance, so the command computes what it would have computed then. -/
def Obligations.OperandsStableWhilePending : Prop :=
  ∀ (s : State) (ts : List Transaction), s.busy = true → (∀ t ∈ ts, isSoftReset t = false) →
    let t := afterHost ts s
    t.busy = true ∧ t.pending = s.pending ∧ t.cfg = s.cfg ∧ t.mem = s.mem ∧ t.offset = s.offset ∧ t.row = s.row ∧
      t.scanMode = s.scanMode ∧ t.pMode = s.pMode ∧
      ∀ i, s.pending = some i → ∃ r r', exec i s = .next r ∧ exec i t = .next r' ∧
        r'.mem = r.mem ∧ r'.row = r.row ∧ r'.offset = r.offset ∧ r'.fallIdx = r.fallIdx ∧ r'.riseIdx = r.riseIdx

/-- 40_command_engine R132, R133: a command's results do not depend on how many host turns, or which, stand between
its acceptance and its completion, as long as none is a soft reset. -/
def Obligations.ResultsIndependentOfDelay : Prop :=
  ∀ (s : State) (i : Instr) (ts : List Transaction), s.busy = true → s.pending = some i →
    (∀ t ∈ ts, isSoftReset t = false) →
    ∃ now late, exec i s = .next now ∧
      Sys2Proof.core.run (ts.length + 1) (s.withAgenda (ts.map Turn.host ++ [.engine])) = .next late ∧
      late.mem = now.mem ∧ late.row = now.row ∧ late.offset = now.offset ∧ late.fallIdx = now.fallIdx ∧
      late.riseIdx = now.riseIdx ∧ late.alignMiss = now.alignMiss ∧ late.cfg = now.cfg ∧
      late.busy = false ∧ late.done = true

/-- 20_memory R83: without a completion step, `DONE` does not become 1 while a command is pending. -/
def Obligations.DoneOnlyAfterCompletion : Prop :=
  ∀ (s : State) (ts : List Transaction), s.busy = true → s.done = false → (afterHost ts s).done = false

/-- 40_command_engine R135: the write sets. -/
def Obligations.WriteSetTable : Prop :=
  ∀ (c : ConfigRegs) (r : Ram) (k : Nat),
    (inRamWriteSet .nop c r k = false) ∧ (inRamWriteSet .frameStart c r k = false) ∧
    (inRamWriteSet .sync c r k = false) ∧
    (inRamWriteSet .filter c r k = true ↔ r = .wavg ∧ k < nwin c) ∧
    (inRamWriteSet .demod c r k = true ↔ (r = .ybuf ∨ r = .ibuf ∨ r = .qbuf) ∧ k < npix c) ∧
    (inRamWriteSet .color c r k = true ↔ r = .pix ∧ k < npix c) ∧
    (inRamWriteSet .line c r k = true ↔
      (r = .wavg ∧ k < nwin c) ∨ ((r = .ybuf ∨ r = .ibuf ∨ r = .qbuf ∨ r = .pix) ∧ k < npix c)) ∧
    (∀ i, writesRow i = true ↔ i = .frameStart ∨ i = .line) ∧ (∀ i, writesSync i = true ↔ i = .sync ∨ i = .line) ∧
    (∀ i, writesRowLimit i = true ↔ i = .line)

/-- 40_command_engine R136, R132, 60_exceptions R263: every command completes from every state, sets `DONE`, clears
`BUSY`, raises no error, takes no draw and writes nothing outside its write set. -/
def Obligations.EffectsCompleteAndStayInWriteSet : Prop :=
  ∀ (i : Instr) (s : State), ∃ t, exec i s = .next t ∧
    t = { s with
      busy := false, done := true, mem := t.mem, row := t.row, offset := t.offset, fallIdx := t.fallIdx,
      riseIdx := t.riseIdx, alignMiss := t.alignMiss, rowLimit := t.rowLimit } ∧
    (writesRow i = false → t.row = s.row) ∧
    (writesSync i = false → t.offset = s.offset ∧ t.fallIdx = s.fallIdx ∧ t.riseIdx = s.riseIdx ∧
      t.alignMiss = s.alignMiss) ∧
    (writesRowLimit i = false → t.rowLimit = s.rowLimit) ∧
    ∀ a, (∀ r k, inRamWriteSet i s.cfg r k = true → a < ramAddr r k ∨ ramAddr r k + 4 ≤ a) →
      readByte t.mem a = readByte s.mem a

/-- 40_command_engine R136, 10_state R59: no effect reads a status flag or the interrupt enables. -/
def Obligations.EffectsReadNoStatusFlag : Prop :=
  ∀ (i : Instr) (s : State) (d e a l di ei : Bool) (c : ErrCode),
    ∃ t t', exec i s = .next t ∧
      exec i { s with done := d, err := e, alignMiss := a, rowLimit := l, errCode := c, doneIe := di, errIe := ei }
        = .next t' ∧
      t'.mem = t.mem ∧ t'.row = t.row ∧ t'.offset = t.offset ∧ t'.fallIdx = t.fallIdx ∧ t'.riseIdx = t.riseIdx ∧
      (i = .sync ∨ (i = .line ∧ s.row.toNat < s.cfg.rowCeil.toNat) → t'.alignMiss = t.alignMiss)

/-! ### The commands -/

/-- 40_command_engine R140: NOP only completes. -/
def Obligations.NopOnlyCompletes : Prop :=
  ∀ s : State, exec .nop s = .next { s with busy := false, done := true }

/-- 40_command_engine R141: FRAME_START clears `ROW` and touches nothing else; `ROW_LIMIT` stays. -/
def Obligations.FrameStartClearsRow : Prop :=
  ∀ s : State, exec .frameStart s = .next { s with row := 0#16, busy := false, done := true }

/-- 41_reconstructor R142, R143: FILTER stores every window's average and nothing else. -/
def Obligations.FilterStoresWindowAverages : Prop :=
  ∀ s : State, legal .filter s = true →
    ∃ m, exec .filter s = .next { s with mem := m, busy := false, done := true } ∧
      (∀ j < Rule.windows s, readRam m .wavg j = Rule.fixed (Rule.windowMean s j)) ∧
      ∀ a, Rule.Outside .wavg (Rule.windows s) a → readByte m a = readByte s.mem a

/-- 41_reconstructor R153: what the comparisons of SYNC say of the exact averages, where the stored average did not
saturate: at its low end for the fall, at its high end for the rise. -/
def Obligations.StoredAverageComparesLikeExactAverage : Prop :=
  ∀ (s : State) (j : Nat), legal .filter s = true → j < Rule.windows s →
    ∃ t, exec .filter s = .next t ∧
      (-32768 ≤ Rule.windowMean s j → (Rule.Fall t j ↔ Rule.windowMean s j < Rule.real s.cfg.tFall)) ∧
      (Rule.windowMean s j < 32768 →
        (Rule.Rise t j ↔ Rule.real s.cfg.tRise + 1 / 2 ^ 16 ≤ Rule.windowMean s j))

/-- 41_reconstructor R151: SYNC without a fall, or with a fall and no later rise, is a miss. -/
def Obligations.SyncWithoutPairMisses : Prop :=
  ∀ s : State, legal .sync s = true →
    ((∀ j < Rule.windows s, ¬ Rule.Fall s j) →
      exec .sync s = .next { s with
        offset := 0#16, fallIdx := 0xFFFF#16, riseIdx := 0xFFFF#16, alignMiss := true, busy := false, done := true }) ∧
    ∀ f, Rule.FallWindow s f → (∀ j, f < j → j < Rule.windows s → ¬ Rule.Rise s j) →
      ∃ fall : BitVec 16, fall.toNat = f ∧ exec .sync s = .next { s with
        offset := 0#16, fallIdx := fall, riseIdx := 0xFFFF#16, alignMiss := true, busy := false, done := true }

/-- 41_reconstructor R150, R152: SYNC with a fall window and a rise window after it aligns to the rise. -/
def Obligations.SyncAlignsToTheRiseWindow : Prop :=
  ∀ (s : State) (f r : Nat), legal .sync s = true → Rule.FallWindow s f → Rule.RiseWindow s f r →
    ∃ off fall rise : BitVec 16, off.toNat = r * s.cfg.winLen.toNat ∧ off.toNat < s.cfg.lineLen.toNat ∧
      fall.toNat = f ∧ rise.toNat = r ∧ exec .sync s = .next { s with
        offset := off, fallIdx := fall, riseIdx := rise, alignMiss := false, busy := false, done := true }

/-- 41_reconstructor R155: a line with two clean pulses, falls in windows `a1` to `b1` and `a2` to `b2` only, each followed
by a rise. A reverse scan aligns to the second pulse's rise, a forward scan to the first's. That no window of the first
pulse is itself a rise is what `T_FALL <= T_RISE` gives. -/
def Obligations.TwoPulsesAlignToTheScannedOne : Prop :=
  ∀ (s : State) (a1 b1 a2 b2 : Nat), legal .sync s = true → a1 ≤ b1 → b1 + 1 < a2 → a2 ≤ b2 → b2 + 1 < Rule.windows s →
    (∀ j < Rule.windows s, Rule.Fall s j ↔ (a1 ≤ j ∧ j ≤ b1 ∨ a2 ≤ j ∧ j ≤ b2)) →
    Rule.Rise s (b1 + 1) → Rule.Rise s (b2 + 1) → s.cfg.tFall.toInt ≤ s.cfg.tRise.toInt →
    ∃ t, exec .sync s = .next t ∧ t.alignMiss = false ∧
      (s.scanMode = true → t.fallIdx.toNat = b2 ∧ t.riseIdx.toNat = b2 + 1 ∧
        t.offset.toNat = (b2 + 1) * s.cfg.winLen.toNat ∧
        aligned t 0 = readRam s.mem .raw ((b2 + 1) * s.cfg.winLen.toNat)) ∧
      (s.scanMode = false → t.fallIdx.toNat = a1 ∧ t.riseIdx.toNat = b1 + 1 ∧
        t.offset.toNat = (b1 + 1) * s.cfg.winLen.toNat ∧
        aligned t 0 = readRam s.mem .raw ((b1 + 1) * s.cfg.winLen.toNat))

/-- 41_reconstructor R154: the aligned line is the line rotated left by `OFFSET`, and no command moves `RAW`. -/
def Obligations.AlignedLineIsTheRotatedLine : Prop :=
  (∀ s : State, lLine s.cfg = true → s.offset.toNat < s.cfg.lineLen.toNat →
    (List.range s.cfg.lineLen.toNat).map (aligned s) =
      ((List.range s.cfg.lineLen.toNat).map (readRam s.mem .raw)).rotate s.offset.toNat) ∧
  ∀ (i : Instr) (s : State), ∃ t, exec i s = .next t ∧ ∀ k, readRam t.mem .raw k = readRam s.mem .raw k

/-- 42_demodulator R162: the table index is the floored phase, for every shift, and lies in the table. -/
def Obligations.PhaseIndexIsTheFlooredPhase : Prop :=
  (∀ (c : ConfigRegs) (p : Nat),
    (phaseIndex c p : Int) = ((p * 2 ^ 16 + c.phaseShift.toInt) * c.carrierInc.toNat) / 2 ^ 40 % 256 ∧
    (phaseIndex c p : Int) = ⌊256 * Rule.cycles c p⌋ % 256 ∧
    (phaseIndex c p : Int) = ⌊256 * Int.fract (Rule.cycles c p)⌋ ∧ phaseIndex c p < 256) ∧
  (List.range 5).map (phaseIndex { ConfigRegs.reset with carrierInc := 0x40000000#32 }) = [0, 64, 128, 192, 0] ∧
  (List.range 5).map (phaseIndex { ConfigRegs.reset with carrierInc := 0x40000000#32, phaseShift := 0x10000#32 })
    = [64, 128, 192, 0, 64]

/-- 42_demodulator R161: the two readings of the sample index, and when they agree. -/
def Obligations.SampleIndexModesAgreeOnWholeCycles : Prop :=
  ∀ (s : State) (i : Nat),
    (s.pMode = false → sampleIndex s i = i) ∧
    (s.pMode = true → sampleIndex s i = s.row.toNat * s.cfg.lineLen.toNat + i) ∧
    (2 ^ 32 ∣ s.cfg.lineLen.toNat * s.cfg.carrierInc.toNat →
      phaseIndex s.cfg (s.row.toNat * s.cfg.lineLen.toNat + i) = phaseIndex s.cfg i)

/-- 42_demodulator R160 to R168: DEMOD stores every chunk's Y, I and Q and nothing else. -/
def Obligations.DemodStoresYiq : Prop :=
  ∀ s : State, legal .demod s = true →
    ∃ m, exec .demod s = .next { s with mem := m, busy := false, done := true } ∧
      (∀ c < Rule.pixels s, ∃ loI hiI loQ hiQ,
        Rule.Extremes (Rule.contribI s) (c * s.cfg.chunkW.toNat) s.cfg.chunkW.toNat loI hiI ∧
        Rule.Extremes (Rule.contribQ s) (c * s.cfg.chunkW.toNat) s.cfg.chunkW.toNat loQ hiQ ∧
        readRam m .ybuf c = Rule.luma s c ∧
        readRam m .ibuf c = Rule.chroma s c (Rule.contribI s) s.cfg.ampCeilI loI hiI ∧
        readRam m .qbuf c = Rule.chroma s c (Rule.contribQ s) s.cfg.ampCeilQ loQ hiQ) ∧
      ∀ a, Rule.Outside .ybuf (Rule.pixels s) a → Rule.Outside .ibuf (Rule.pixels s) a →
        Rule.Outside .qbuf (Rule.pixels s) a → readByte m a = readByte s.mem a

/-- 42_demodulator R168, 30_encoding R106: what DEMOD stores is normalised: Y in [0, 1], I and Q in [-1, 1]. -/
def Obligations.DemodStoresNormalisedValues : Prop :=
  ∀ (s : State) (c : Nat), legal .demod s = true → c < Rule.pixels s →
    ∃ t, exec .demod s = .next t ∧
      0 ≤ (readRam t.mem .ybuf c).toInt ∧ (readRam t.mem .ybuf c).toInt ≤ 2 ^ 16 ∧
      -(2 ^ 16) ≤ (readRam t.mem .ibuf c).toInt ∧ (readRam t.mem .ibuf c).toInt ≤ 2 ^ 16 ∧
      -(2 ^ 16) ≤ (readRam t.mem .qbuf c).toInt ∧ (readRam t.mem .qbuf c).toInt ≤ 2 ^ 16

/-- 42_demodulator R169: a chunk of equal contributions stores no chroma, a luma below or above its window stores 0 or 1,
and with a zero carrier increment every sample uses table entry 0 for its sine and entry 64 for its cosine. -/
def Obligations.DemodCornerCases : Prop :=
  ∀ (s : State) (c : Nat), legal .demod s = true → c < Rule.pixels s →
    ∃ t, exec .demod s = .next t ∧
      ((∀ m < s.cfg.chunkW.toNat, Rule.contribI s (c * s.cfg.chunkW.toNat + m) = Rule.contribI s (c * s.cfg.chunkW.toNat)) →
        readRam t.mem .ibuf c = 0#32) ∧
      ((∀ m < s.cfg.chunkW.toNat, Rule.contribQ s (c * s.cfg.chunkW.toNat + m) = Rule.contribQ s (c * s.cfg.chunkW.toNat)) →
        readRam t.mem .qbuf c = 0#32) ∧
      (Rule.meanOver (Rule.alignedVolt s) (c * s.cfg.chunkW.toNat) s.cfg.chunkW.toNat ≤ Rule.real s.cfg.yLo →
        readRam t.mem .ybuf c = 0#32) ∧
      (Rule.real s.cfg.yHi ≤ Rule.meanOver (Rule.alignedVolt s) (c * s.cfg.chunkW.toNat) s.cfg.chunkW.toNat →
        readRam t.mem .ybuf c = 0x10000#32) ∧
      (s.cfg.carrierInc = 0#32 → ∀ i, phaseIndex s.cfg (sampleIndex s i) = 0 ∧
        sampleSin s i = Rule.real (readRam s.mem .lut 0) ∧ sampleCos s i = Rule.real (readRam s.mem .lut 64))

/-- 42_demodulator R170: a chunk of whole carrier cycles, four samples a cycle, gain 2, ideal table: the luma is the DC
offset, the I correlation the amplitude of the sine, the Q correlation the amplitude of the cosine. -/
def Obligations.QuarterCycleDemodRecoversAmplitudes : Prop :=
  ∀ (s : State) (c : Nat) (dc a b : ℚ), 0 < s.cfg.chunkW.toNat → 4 ∣ s.cfg.chunkW.toNat → s.pMode = false →
    s.cfg.carrierInc = 0x40000000#32 → s.cfg.phaseShift = 0#32 → s.cfg.gain = 0x20000#32 →
    readRam s.mem .lut 0 = 0#32 → readRam s.mem .lut 64 = 0x10000#32 → readRam s.mem .lut 128 = 0#32 →
    readRam s.mem .lut 192 = 0xFFFF0000#32 →
    (∀ m < s.cfg.chunkW.toNat, sampleVolt s (c * s.cfg.chunkW.toNat + m) =
      dc + a * ![0, 1, 0, -1] (Fin.ofNat 4 m) + b * ![1, 0, -1, 0] (Fin.ofNat 4 m)) →
    mean (chunkVolts s c) = dc ∧ mean (chunkI s c) = a ∧ mean (chunkQ s c) = b

/-- 43_color R190, R192: a channel is the integer formula, and truncating before or after the clamp is the same. -/
def Obligations.ChannelIsTheIntegerFormula : Prop :=
  (∀ (y i qq : Word) (a b : Int), Sys2Proof.Machine.channel (q y) (q i) (q qq) (a, b) = Rule.channel a b y i qq) ∧
  (∀ (y i qq : ℚ) (a b : Int), Sys2Proof.Machine.channel y i qq (a, b) =
    max 0 (min 255 ⌊255 * (y + (a : ℚ) / 10000 * i + (b : ℚ) / 10000 * qq)⌋)) ∧
  ∀ x : ℚ, ⌊Rule.clip x 0 255⌋ = min (max ⌊x⌋ 0) 255

/-- 43_color R190 to R193: COLOR stores every pixel, alpha 255 and the three channels of the fixed matrix, and nothing
else. -/
def Obligations.ColorStoresPixels : Prop :=
  ∀ s : State, legal .color s = true →
    ∃ m, exec .color s = .next { s with mem := m, busy := false, done := true } ∧
      (∀ c < Rule.pixels s,
        let y := readRam s.mem .ybuf c
        let i := readRam s.mem .ibuf c
        let qq := readRam s.mem .qbuf c
        ((readRam m .pix c).toNat : Int) = 255 * 2 ^ 24 + Rule.channel 24563 16190 y i qq * 2 ^ 16
          + Rule.channel (-2721) (-6474) y i qq * 2 ^ 8 + Rule.channel (-11070) 17046 y i qq) ∧
      ∀ a, Rule.Outside .pix (Rule.pixels s) a → readByte m a = readByte s.mem a

/-- 43_color R195: black and white round trips. -/
def Obligations.ColorBlackAndWhite : Prop :=
  ∀ (s : State) (c : Nat), legal .color s = true → c < Rule.pixels s →
    readRam s.mem .ibuf c = 0#32 → readRam s.mem .qbuf c = 0#32 →
    ∃ t, exec .color s = .next t ∧
      (readRam s.mem .ybuf c = 0x00000000#32 → readRam t.mem .pix c = 0xFF000000#32) ∧
      (readRam s.mem .ybuf c = 0x00010000#32 → readRam t.mem .pix c = 0xFFFFFFFF#32)

/-- 44_line R241: a row-limited LINE sets `ROW_LIMIT` and `DONE` and writes nothing else. -/
def Obligations.LineAtTheCeilingOnlySetsRowLimit : Prop :=
  ∀ s : State, s.cfg.rowCeil.toNat ≤ s.row.toNat →
    exec .line s = .next { s with rowLimit := true, busy := false, done := true }

/-- 44_line R242, R244: below the ceiling LINE does what FILTER, SYNC, DEMOD and COLOR do one after another, and
increments `ROW`; its legality is the union of theirs without `L_OFF`. -/
def Obligations.LineRunsTheFourStages : Prop :=
  ∀ s : State,
    (s.row.toNat < s.cfg.rowCeil.toNat →
      ∃ s1 s2 s3 s4 row, exec .filter s = .next s1 ∧ exec .sync s1 = .next s2 ∧ exec .demod s2 = .next s3 ∧
        exec .color s3 = .next s4 ∧ row.toNat = s.row.toNat + 1 ∧
        exec .line s = .next { s4 with row := row }) ∧
    (legal .line s = true ∧ s.offset.toNat < s.cfg.lineLen.toNat ↔
      legal .filter s = true ∧ legal .sync s = true ∧ legal .demod s = true ∧ legal .color s = true) ∧
    ∀ o, legal .line { s with offset := o } = legal .line s

/-- 44_line R243: `ROW` stays at most `ROW_CEIL` through a LINE and never wraps; lowering the ceiling leaves `ROW`, and
LINE is row-limited until a FRAME_START. -/
def Obligations.RowNeverPassesTheCeiling : Prop :=
  ∀ s : State,
    (∃ t, exec .line s = .next t ∧ (s.row.toNat ≤ s.cfg.rowCeil.toNat → t.row.toNat ≤ t.cfg.rowCeil.toNat) ∧
      (t.row = s.row ∨ s.row.toNat < s.cfg.rowCeil.toNat ∧ t.row.toNat = s.row.toNat + 1) ∧
      (s.cfg.rowCeil.toNat ≤ s.row.toNat → t.row = s.row ∧ t.rowLimit = true)) ∧
    (∀ i, i ≠ .line → i ≠ .frameStart → ∃ t, exec i s = .next t ∧ t.row = s.row) ∧
    ∀ w, (hostTurn (busWrite 0x05C#17 w) s).row = s.row

/-- The source's end-to-end property (95_test_vectors E10): a line of samples at voltage zero, with `T_FALL` at most 0
and `Y_LO = 0`, is a miss, demodulates to zero and gives black pixels. -/
def Obligations.BaselineLineIsBlack : Prop :=
  ∀ s : State, legal .line s = true → s.row.toNat < s.cfg.rowCeil.toNat →
    (∀ k < s.cfg.lineLen.toNat, Rule.volt s k = 0) → s.cfg.tFall.toInt ≤ 0 → s.cfg.yLo = 0#32 →
    ∃ t, exec .line s = .next t ∧ t.alignMiss = true ∧ t.offset = 0#16 ∧ t.fallIdx = 0xFFFF#16 ∧
      t.riseIdx = 0xFFFF#16 ∧ t.err = s.err ∧ (∀ j < Rule.windows s, readRam t.mem .wavg j = 0#32) ∧
      ∀ c < Rule.pixels s, readRam t.mem .ybuf c = 0#32 ∧ readRam t.mem .ibuf c = 0#32 ∧
        readRam t.mem .qbuf c = 0#32 ∧ readRam t.mem .pix c = 0xFF000000#32

/-! ### The bus -/

/-- 20_memory R71: a transaction that is not valid raises `Err(ACCESS)` and does nothing else; a read returns 0. -/
def Obligations.InvalidAccessOnlyRaises : Prop :=
  ∀ (s : State) (off : BitVec 17) (size : AccessSize) (w : Word), (size ≠ .word ∨ off.toNat % 4 ≠ 0) →
    hostTurn (.read off size) s = { Rule.raised .access s with rdata := 0#32 } ∧
    hostTurn (.write off size w) s = Rule.raised .access s

/-- 20_memory R74: reserved offsets read 0 and ignore writes, also while busy. -/
def Obligations.ReservedOffsetsReadZeroIgnoreWrites : Prop :=
  ∀ (s : State) (off : BitVec 17) (w : Word), off.toNat % 4 = 0 →
    (0x28 ≤ off.toNat ∧ off.toNat ≤ 0x3C ∨ 0x84 ≤ off.toNat ∧ off.toNat ≤ 0x3FFC ∨ 0x1C400 ≤ off.toNat) →
    hostTurn (busRead off) s = { s with rdata := 0#32 } ∧ hostTurn (busWrite off w) s = s

/-- 20_memory R73, R75, 10_state R51: a RAM word through its bus offset, with the bases and sizes of the address map. -/
def Obligations.RamWindowReadsAndWrites : Prop :=
  ∀ (s : State) (r : Ram) (i : Nat) (w : Word), i < Rule.ramCount r →
    (Rule.ramOffset r i).toNat = Rule.ramBase r + 4 * i ∧
    (s.busy = false → hostTurn (busRead (Rule.ramOffset r i)) s = { s with rdata := readRam s.mem r i }) ∧
    (s.busy = true → hostTurn (busWrite (Rule.ramOffset r i) w) s = Rule.raised .busy s) ∧
    (s.busy = false → ∃ m, hostTurn (busWrite (Rule.ramOffset r i) w) s = { s with mem := m } ∧
      readRam m r i = (if r = .raw then w &&& 0xFFFF#32 else w) ∧
      ∀ a, (a < Rule.ramBase r + 4 * i ∨ Rule.ramBase r + 4 * i + 4 ≤ a) → readByte m a = readByte s.mem a) ∧
    (r = .raw → (readRam s.mem r i).toNat < 2 ^ 16)

/-- 20_memory R77: byte lane `b` of a RAM word is the byte at offset `b` of it. -/
def Obligations.ByteLanesAreLittleEndian : Prop :=
  ∀ (m : Memory) (r : Ram) (i b : Nat), i < r.words → b < 4 →
    readByte m (ramAddr r i + b) = (readRam m r i).extractLsb' (8 * b) 8

/-- 20_memory R73, 10_state R33 to R50: at the offset and with the width of the tables, an idle write of a configuration
register stores its field and changes nothing else, a write while busy raises `Err(BUSY)`, and a read, busy or not, returns
the field. -/
def Obligations.ConfigRegisterWrites : Prop :=
  ∀ (s : State) (r : CfgReg) (w : Word),
    (s.busy = false → ∃ c, hostTurn (busWrite (Rule.configOffset r) w) s = { s with cfg := c } ∧
      Rule.configField c r = w.toNat % 2 ^ Rule.configWidth r ∧
      ∀ r', r' ≠ r → Rule.configField c r' = Rule.configField s.cfg r') ∧
    (s.busy = true → hostTurn (busWrite (Rule.configOffset r) w) s = Rule.raised .busy s) ∧
    ∃ v : Word, v.toNat = Rule.configField s.cfg r ∧ hostTurn (busRead (Rule.configOffset r)) s = { s with rdata := v }

/-- 10_state R21, R22: the identification registers read their constants and ignore writes, also while busy. -/
def Obligations.IdentificationRegistersAreConstant : Prop :=
  ∀ (s : State) (w : Word), ∀ e ∈ [(0x000#17, 0x41563248#32), (0x004#17, 0x1000#32), (0x008#17, 0x100#32)],
    hostTurn (busRead e.1) s = { s with rdata := e.2 } ∧ hostTurn (busWrite e.1 w) s = s

/-- 10_state R29, R30, R32, R50: `ROW` and `SYNC_POS` ignore host writes, also while busy, and what they and `CMD`
read. -/
def Obligations.ResultRegistersIgnoreWrites : Prop :=
  ∀ (s : State) (w : Word),
    hostTurn (busWrite 0x01C#17 w) s = s ∧ hostTurn (busWrite 0x024#17 w) s = s ∧
    hostTurn (busRead 0x018#17) s = { s with rdata := 0#32 } ∧
    (s.busy = false → ∃ r p : Word, r.toNat = s.row.toNat ∧ p.toNat = s.riseIdx.toNat * 2 ^ 16 + s.fallIdx.toNat ∧
      hostTurn (busRead 0x01C#17) s = { s with rdata := r } ∧ hostTurn (busRead 0x024#17) s = { s with rdata := p })

/-- 10_state R25, R28, R31: idle writes of `CTRL` without the reset bit, of `IRQ_EN` and of `OFFSET`, and what the
registers read. -/
def Obligations.ControlRegisterWrites : Prop :=
  ∀ (s : State) (w : Word), s.busy = false →
    (w.getLsbD 0 = false → hostTurn (busWrite 0x00C#17 w) s = { s with scanMode := w.getLsbD 1, pMode := w.getLsbD 2 }) ∧
    hostTurn (busWrite 0x014#17 w) s = { s with doneIe := w.getLsbD 0, errIe := w.getLsbD 1 } ∧
    (∃ o : BitVec 16, o.toNat = w.toNat % 2 ^ 16 ∧ hostTurn (busWrite 0x020#17 w) s = { s with offset := o }) ∧
    (regRead .ctrl s).toNat = 2 * s.scanMode.toNat + 4 * s.pMode.toNat ∧
    (regRead .irqEn s).toNat = s.doneIe.toNat + 2 * s.errIe.toNat ∧ (regRead .offset s).toNat = s.offset.toNat

/-- 10_state R26, 60_exceptions R260: the bits of `STATUS`. -/
def Obligations.StatusWordLayout : Prop :=
  ∀ s : State, (regRead .status s).toNat = s.busy.toNat + 2 * s.done.toNat + 4 * s.err.toNat + 8 * s.alignMiss.toNat
      + 16 * s.rowLimit.toNat + 256 * s.errCode.code.toNat ∧
    s.errCode.code.toNat < 5 ∧ ErrCode.none.code.toNat = 0 ∧ ErrCode.illegalCmd.code.toNat = 1 ∧
    ErrCode.busy.code.toNat = 2 ∧ ErrCode.config.code.toNat = 3 ∧ ErrCode.access.code.toNat = 4

/-- 10_state R27: write-one-to-clear of `STATUS`, whether or not busy. -/
def Obligations.StatusWriteOneToClear : Prop :=
  ∀ (s : State) (w : Word), hostTurn (busWrite 0x010#17 w) s =
    { s with
      done := if w.getLsbD 1 then false else s.done
      rowLimit := if w.getLsbD 4 then false else s.rowLimit
      err := if w.getLsbD 2 then false else s.err
      errCode := if w.getLsbD 2 then .none else s.errCode }

/-- 70_reset_and_hazards R300: the writes while a command is pending, every row of the table. -/
def Obligations.WritesWhilePending : Prop :=
  ∀ (s : State) (w : Word), s.busy = true →
    (hostTurn (busWrite 0x010#17 w) s = clearStatus w s) ∧
    (w.getLsbD 0 = true → hostTurn (busWrite 0x00C#17 w) s = softReset s) ∧
    (w.getLsbD 0 = false → hostTurn (busWrite 0x00C#17 w) s = Rule.raised .busy s) ∧
    (∀ l off, offsetOf l = some off →
      (l = .cmd ∨ l = .irqEn ∨ l = .offset ∨ (∃ r, l = .cfg r) ∨ ∃ r i, l = .ram r i ∧ i < r.words) →
      hostTurn (busWrite (BitVec.ofNat 17 off) w) s = Rule.raised .busy s) ∧
    (∀ l off, offsetOf l = some off → (l = .id ∨ l = .lineMax ∨ l = .lutSize ∨ l = .row ∨ l = .syncPos) →
      hostTurn (busWrite (BitVec.ofNat 17 off) w) s = s) ∧
    (∀ off : BitVec 17, off.toNat % 4 = 0 →
      (0x28 ≤ off.toNat ∧ off.toNat ≤ 0x3C ∨ 0x84 ≤ off.toNat ∧ off.toNat ≤ 0x3FFC ∨ 0x1C400 ≤ off.toNat) →
      hostTurn (busWrite off w) s = s) ∧
    ∀ (off : BitVec 17) (size : AccessSize), (size ≠ .word ∨ off.toNat % 4 ≠ 0) →
      hostTurn (.write off size w) s = Rule.raised .access s

/-- 70_reset_and_hazards R301: reads of every location of the aperture while a command is pending. What a draw is, and that a read of `ROW`, `OFFSET` or
`SYNC_POS` draws all 32 bits, is the model's choice (log entries 4 and 5). -/
def Obligations.ReadsWhilePending : Prop :=
  ∀ (s : State) (i : Instr), s.busy = true → s.pending = some i →
    (∀ r k, k < Rule.ramCount r → hostTurn (busRead (Rule.ramOffset r k)) s =
      if inRamWriteSet i s.cfg r k then { s with rdata := Config.freeWord s.draws, draws := s.draws + 1 }
      else { s with rdata := readRam s.mem r k }) ∧
    (∀ e ∈ [(0x01C#17, writesRow i, s.row.toNat), (0x020#17, writesSync i, s.offset.toNat),
        (0x024#17, writesSync i, s.riseIdx.toNat * 2 ^ 16 + s.fallIdx.toNat),
        (0x000#17, false, 0x41563248), (0x004#17, false, 4096), (0x008#17, false, 256),
        (0x00C#17, false, 2 * s.scanMode.toNat + 4 * s.pMode.toNat),
        (0x014#17, false, s.doneIe.toNat + 2 * s.errIe.toNat), (0x018#17, false, 0)],
      ∃ v : Word, v.toNat = e.2.2 ∧ hostTurn (busRead e.1) s =
        if e.2.1 then { s with rdata := Config.freeWord s.draws, draws := s.draws + 1 } else { s with rdata := v }) ∧
    (∀ r : CfgReg, ∃ v : Word, v.toNat = Rule.configField s.cfg r ∧
      hostTurn (busRead (Rule.configOffset r)) s = { s with rdata := v }) ∧
    (∀ off : BitVec 17, off.toNat % 4 = 0 →
      (0x28 ≤ off.toNat ∧ off.toNat ≤ 0x3C ∨ 0x84 ≤ off.toNat ∧ off.toNat ≤ 0x3FFC ∨ 0x1C400 ≤ off.toNat) →
      hostTurn (busRead off) s = { s with rdata := 0#32 }) ∧
    ∃ w n, hostTurn (busRead 0x010#17) s = { s with rdata := w, draws := n } ∧
      (∀ b, (b ≠ 3 ∨ writesSync i = false) → (b ≠ 4 ∨ writesRowLimit i = false) →
        w.getLsbD b = (regRead .status s).getLsbD b) ∧
      (writesSync i = false → n = s.draws) ∧
      (writesSync i = true → w.getLsbD 3 = (Config.freeWord s.draws).getLsbD 3 ∧ n = s.draws + 1) ∧
      (writesRowLimit i = true → w.getLsbD 4 = (Config.freeWord s.draws).getLsbD 4)

/-- 20_memory R79, 60_exceptions R264: a valid read changes nothing the spec gives the machine and raises no error; only
the word returned and the model's count of draws change. -/
def Obligations.ValidReadsHaveNoSideEffect : Prop :=
  ∀ (s : State) (off : BitVec 17), off.toNat % 4 = 0 →
    ∃ w n, hostTurn (busRead off) s = { s with rdata := w, draws := n } ∧
      (s.busy = false → n = s.draws ∧ w = regRead (locate off) s)

/-- Which bus addresses reach the aperture is the platform's (20_memory R72). That address `base + off` reaches offset
`off`, and no other address reaches the aperture, is the model's choice (DESIGN CHOICE, log entry 13). -/
def Obligations.ApertureOffsets : Prop :=
  ∀ (base addr : Nat) (off : BitVec 17),
    apertureOffset base addr = some off ↔ addr = base + off.toNat

/-! ### Errors and the interrupt -/

/-- 60_exceptions R262, R269: the first error code stays until the host clears it or resets the block. -/
def Obligations.FirstErrorCodeIsKept : Prop :=
  ∀ (s : State) (t : Transaction), s.err = true → isSoftReset t = false →
    (∀ w, t = busWrite 0x010#17 w → w.getLsbD 2 = false) →
    (hostTurn t s).err = true ∧ (hostTurn t s).errCode = s.errCode

/-- 10_state R58, 60_exceptions R266: `irq` is the level of the enabled bits, and it stays until the host clears a status
bit that holds it up, or an enable, or resets the block; a write that clears neither, or is dropped, leaves it. -/
def Obligations.IrqStaysUntilAcknowledged : Prop :=
  ∀ s : State,
    (s.irq = true ↔ (s.done = true ∧ s.doneIe = true) ∨ (s.err = true ∧ s.errIe = true)) ∧
    ∀ t, s.irq = true → step s = .next t → t.irq = true ∨
      ∃ tr rest, s.agenda = .host tr :: rest ∧ Rule.ClearsIrqSource tr s

/-! ### Invariants and runs -/

/-- State.reset is a good state. -/
def Obligations.ResetIsGood : Prop := StateOk State.reset

/-- From every good state a step answers a next state, and that state is good: memory in its canonical form, a legal
command at the engine, an error code exactly with an error, a meaningful `SYNC_POS`. -/
def Obligations.EveryStepKeepsStateOk : Prop :=
  ∀ s : State, StateOk s → ∃ t, step s = .next t ∧ StateOk t

/-- Whatever turns the host and the engine take from reset, the machine never stops. -/
def Obligations.EveryScheduleRunsFromReset : Prop :=
  ∀ (k : Nat) (l : List Turn), SafeRun k (State.reset.withAgenda l)

/-- 30_encoding R108, 40_command_engine R130 to R132: the script line `run` on an idle, legal configuration ends with the
command's results, `BUSY` read as 0 and `DONE` as 1, whatever the number of polls. -/
def Obligations.RunScriptCompletesTheCommand : Prop :=
  ∀ (s : State) (i : Instr) (polls : Nat), s.busy = false → legal i s = true →
    ∃ t r, Sys2Proof.core.run (polls + 4) (s.withAgenda (expandLine (.run i polls))) = .next t ∧ exec i s = .next r ∧
      t.mem = r.mem ∧ t.row = r.row ∧ t.offset = r.offset ∧ t.fallIdx = r.fallIdx ∧ t.riseIdx = r.riseIdx ∧
      t.alignMiss = r.alignMiss ∧ t.cfg = s.cfg ∧ t.busy = false ∧ t.err = false ∧ t.rdata.getLsbD 0 = false ∧ t.rdata.getLsbD 1 = true
end

