-- ==== Sys2Proof/Laws/Memory.lean ====
section
/-! SUPPORT. The laws of the memory: read after write, what a write leaves alone, and the canonical form. -/

namespace Sys2Proof.Machine

/-! ### Cells -/

theorem memLookup_memInsert (m : Memory) (a x : Nat) (b : Byte) :
    memLookup (memInsert m a b) x = if a = x then some b else memLookup m x := by
  induction m with
  | nil => simp [memInsert, memLookup]
  | cons c rest ih =>
    obtain ⟨k, d⟩ := c
    simp only [memInsert]
    split_ifs with h1 h2 <;> simp only [memLookup, ih] <;> split_ifs <;> first | rfl | omega

theorem memInsert_keys (m : Memory) (a : Nat) (b : Byte) :
    ∀ c ∈ memInsert m a b, c.1 = a ∨ c ∈ m := by
  induction m with
  | nil => simp [memInsert]
  | cons d rest ih =>
    obtain ⟨k, e⟩ := d
    intro c hc
    simp only [memInsert] at hc
    split_ifs at hc with h1 h2 <;> simp only [List.mem_cons] at hc ⊢
    · rcases hc with rfl | hc
      · exact .inl rfl
      · exact .inr hc
    · rcases hc with rfl | hc
      · exact .inl rfl
      · exact .inr (.inr hc)
    · rcases hc with rfl | hc
      · exact .inr (.inl rfl)
      · exact (ih c hc).imp_right .inr

theorem memInsert_sorted (m : Memory) (a : Nat) (b : Byte) (h : m.Pairwise (fun c d => c.1 < d.1)) :
    (memInsert m a b).Pairwise (fun c d => c.1 < d.1) := by
  induction m with
  | nil => simp [memInsert]
  | cons d rest ih =>
    obtain ⟨k, e⟩ := d
    rw [List.pairwise_cons] at h
    simp only [memInsert]
    split_ifs with h1 h2
    · refine List.pairwise_cons.2 ⟨fun c hc => ?_, List.pairwise_cons.2 h⟩
      rcases List.mem_cons.1 hc with rfl | hc
      · exact h1
      · exact h1.trans (h.1 c hc)
    · subst h2
      exact List.pairwise_cons.2 ⟨h.1, h.2⟩
    · refine List.pairwise_cons.2 ⟨fun c hc => ?_, ih h.2⟩
      rcases memInsert_keys rest a b c hc with hk | hc
      · rw [hk]; exact by omega
      · exact h.1 c hc

/-! ### The canonical form -/

theorem wf_nil : Memory.wf [] := by simp [Memory.wf]

theorem writeByte_wf {m : Memory} (h : m.wf) (a : Nat) (b : Byte) : (writeByte m a b).wf := by
  unfold writeByte
  split_ifs with hs
  · refine ⟨memInsert_sorted m a b h.1, fun c hc => ?_⟩
    rcases memInsert_keys m a b c hc with hk | hc
    · rw [hk]; exact hs
    · exact h.2 c hc
  · exact h

theorem writeWord_wf {m : Memory} (h : m.wf) (a : Nat) (w : Word) : (writeWord m a w).wf :=
  writeByte_wf (writeByte_wf (writeByte_wf (writeByte_wf h _ _) _ _) _ _) _ _

theorem writeRam_wf {m : Memory} (h : m.wf) (r : Ram) (i : Nat) (w : Word) : (writeRam m r i w).wf := by
  unfold writeRam
  split_ifs
  · exact writeWord_wf h _ _
  · exact h

theorem writeRange_wf {m : Memory} (h : m.wf) (r : Ram) (f : Nat → Word) (n : Nat) : (writeRange m r f n).wf := by
  induction n with
  | zero => exact h
  | succ n ih => exact writeRam_wf ih _ _ _

/-! ### Bytes -/

/-- A byte read after a byte write: the byte written where there is storage, else what was there. -/
theorem readByte_writeByte (m : Memory) (a x : Nat) (b : Byte) :
    readByte (writeByte m a b) x = if a = x ∧ isStored a = true then b else readByte m x := by
  unfold readByte writeByte
  by_cases hx : isStored x = true <;> by_cases ha : isStored a = true <;> by_cases h : a = x <;>
    simp_all [memLookup_memInsert]

theorem readByte_unstored (m : Memory) {a : Nat} (h : isStored a = false) : readByte m a = 0#8 := by
  simp [readByte, h]

/-! ### Words -/

/-- Every byte after a word write: the lane of the word where there is storage, else what was there. -/
theorem readByte_writeWord (m : Memory) (a x : Nat) (w : Word) :
    readByte (writeWord m a w) x =
      if a ≤ x ∧ x < a + 4 ∧ isStored x = true then byteOfWord w (x - a) else readByte m x := by
  simp only [writeWord, readByte_writeByte]
  by_cases h : a ≤ x ∧ x < a + 4
  · obtain ⟨k, hk, rfl⟩ : ∃ k, k < 4 ∧ x = a + k := ⟨x - a, by omega, by omega⟩
    generalize hs : isStored (a + k) = b
    interval_cases k <;> cases b <;> simp_all
  · have h0 : ¬ (a ≤ x ∧ x < a + 4 ∧ isStored x = true) := fun c => h ⟨c.1, c.2.1⟩
    rw [if_neg h0]
    have e0 : a ≠ x := by omega
    have e1 : a + 1 ≠ x := by omega
    have e2 : a + 2 ≠ x := by omega
    have e3 : a + 3 ≠ x := by omega
    simp [e0, e1, e2, e3]

theorem wordOfBytes_byteOfWord (w : Word) :
    wordOfBytes (byteOfWord w 0) (byteOfWord w 1) (byteOfWord w 2) (byteOfWord w 3) = w := by
  apply BitVec.eq_of_getLsbD_eq
  intro i hi
  rw [wordOfBytes, BitVec.getLsbD_append, BitVec.getLsbD_append, BitVec.getLsbD_append]
  simp only [byteOfWord, BitVec.getLsbD_extractLsb']
  interval_cases i <;> simp

theorem byteOfWord_wordOfBytes (b0 b1 b2 b3 : Byte) (k : Nat) (hk : k < 4) :
    byteOfWord (wordOfBytes b0 b1 b2 b3) k = [b0, b1, b2, b3][k] := by
  apply BitVec.eq_of_getLsbD_eq
  intro i hi
  rw [byteOfWord, BitVec.getLsbD_extractLsb', wordOfBytes, BitVec.getLsbD_append, BitVec.getLsbD_append,
    BitVec.getLsbD_append]
  interval_cases k <;> interval_cases i <;> rfl

theorem readByte_writeWord_outside (m : Memory) {a x : Nat} (w : Word) (h : x < a ∨ a + 4 ≤ x) :
    readByte (writeWord m a w) x = readByte m x := by
  rw [readByte_writeWord, if_neg (by omega)]

theorem readWord_writeWord_disjoint (m : Memory) {a x : Nat} (w : Word) (h : x + 4 ≤ a ∨ a + 4 ≤ x) :
    readWord (writeWord m a w) x = readWord m x := by
  simp only [readWord]
  rw [readByte_writeWord_outside _ _ (by omega), readByte_writeWord_outside _ _ (by omega),
    readByte_writeWord_outside _ _ (by omega), readByte_writeWord_outside _ _ (by omega)]

theorem readWord_writeWord_same (m : Memory) (a : Nat) (w : Word) (h : ∀ k < 4, isStored (a + k) = true) :
    readWord (writeWord m a w) a = w := by
  have e : ∀ k < 4, readByte (writeWord m a w) (a + k) = byteOfWord w k := fun k hk => by
    rw [readByte_writeWord, if_pos ⟨by omega, by omega, h k hk⟩]
    congr 1
    omega
  have e0 := e 0 (by omega)
  rw [Nat.add_zero] at e0
  rw [readWord, e0, e 1 (by omega), e 2 (by omega), e 3 (by omega), wordOfBytes_byteOfWord]

/-- A word write where only lanes 0 and 1 are storage keeps the low half (10_state R51). -/
theorem readWord_writeWord_low (m : Memory) (a : Nat) (w : Word) (h0 : isStored a = true)
    (h1 : isStored (a + 1) = true) (h2 : isStored (a + 2) = false) (h3 : isStored (a + 3) = false) :
    readWord (writeWord m a w) a = w &&& 0xFFFF#32 := by
  have e0 : readByte (writeWord m a w) a = byteOfWord w 0 := by
    rw [readByte_writeWord, if_pos ⟨by omega, by omega, h0⟩]; congr 1; omega
  have e1 : readByte (writeWord m a w) (a + 1) = byteOfWord w 1 := by
    rw [readByte_writeWord, if_pos ⟨by omega, by omega, h1⟩]; congr 1; omega
  rw [readWord, e0, e1, readByte_unstored _ h2, readByte_unstored _ h3]
  apply BitVec.eq_of_getLsbD_eq
  intro i hi
  rw [wordOfBytes, BitVec.getLsbD_append, BitVec.getLsbD_append, BitVec.getLsbD_append, BitVec.getLsbD_and]
  simp only [byteOfWord, BitVec.getLsbD_extractLsb']
  interval_cases i <;> simp

/-! ### RAM words -/

theorem ramAddr_lt {r : Ram} {i : Nat} (h : i < r.words) :
    r.base ≤ ramAddr r i ∧ ramAddr r i + 4 ≤ r.base + 4 * r.words := by
  unfold ramAddr; omega

/-- The byte lanes of a RAM word are storage, but for lanes 2 and 3 of `RAW` (10_state R51). -/
theorem isStored_ramAddr {r : Ram} {i k : Nat} (h : i < r.words) (hk : k < 4) :
    isStored (ramAddr r i + k) = !(r == .raw && decide (2 ≤ k)) := by
  have hm : (0x4000 + 4 * i + k) % 4 = k := by omega
  rw [Bool.eq_iff_iff]
  cases r <;> simp only [Ram.words, Config.lineMax, Config.lutSize] at h <;>
    simp only [ramAddr, Ram.base] <;>
    simp only [isStored, hm, Bool.and_eq_true, Bool.not_eq_true', Bool.and_eq_false_iff,
      decide_eq_true_eq, decide_eq_false_iff_not, beq_eq_false_iff_ne, ne_eq, reduceCtorEq, not_true,
      not_false_eq_true, true_or, false_or, iff_true] <;> omega

/-- The bits of a word that a RAM stores (10_state R51). -/
def keptBits (r : Ram) (w : Word) : Word := if r = .raw then w &&& 0xFFFF#32 else w

theorem readWord_writeWord_ram (m : Memory) (r : Ram) (i : Nat) (w : Word) (h : i < r.words) :
    readWord (writeWord m (ramAddr r i) w) (ramAddr r i) = keptBits r w := by
  unfold keptBits
  have st := fun k hk => isStored_ramAddr (r := r) (i := i) (k := k) h hk
  split_ifs with hr
  · subst hr
    exact readWord_writeWord_low m _ w (by simpa using st 0) (by simpa using st 1) (by simpa using st 2)
      (by simpa using st 3)
  · exact readWord_writeWord_same m _ w fun k hk => by simp [st k hk, hr]

/-- Two RAM words are the same word or do not overlap. -/
theorem ramAddr_disjoint {r r' : Ram} {i j : Nat} (hi : i < r.words) (hj : j < r'.words) (h : ¬ (r = r' ∧ i = j)) :
    ramAddr r' j + 4 ≤ ramAddr r i ∨ ramAddr r i + 4 ≤ ramAddr r' j := by
  cases r <;> cases r' <;> simp only [Ram.words, Config.lineMax, Config.lutSize] at hi hj <;>
    simp only [ramAddr, Ram.base] <;> simp at h <;> omega

/-- All a RAM write does to the RAM words. -/
theorem readRam_writeRam (m : Memory) (r r' : Ram) (i j : Nat) (w : Word) :
    readRam (writeRam m r i w) r' j = if r = r' ∧ i = j ∧ i < r.words then keptBits r w else readRam m r' j := by
  unfold readRam writeRam
  by_cases hj : j < r'.words <;> by_cases hi : i < r.words <;> simp only [hj, hi, if_true, if_false]
  · by_cases h : r = r' ∧ i = j
    · obtain ⟨rfl, rfl⟩ := h
      simp [readWord_writeWord_ram m r i w hi]
    · rw [readWord_writeWord_disjoint _ _ (ramAddr_disjoint hi hj h), if_neg (by tauto)]
  · simp
  · rw [if_neg]
    rintro ⟨rfl, rfl, -⟩
    exact hj hi
  · simp

/-- A RAM write changes no byte outside the word it names. -/
theorem readByte_writeRam_outside (m : Memory) (r : Ram) (i : Nat) (w : Word) {a : Nat}
    (h : a < ramAddr r i ∨ ramAddr r i + 4 ≤ a) : readByte (writeRam m r i w) a = readByte m a := by
  unfold writeRam
  split_ifs
  · exact readByte_writeWord_outside m w h
  · rfl

/-- All that storing the first `n` words of a RAM does to the RAM words. -/
theorem readRam_writeRange (m : Memory) (r r' : Ram) (f : Nat → Word) (n j : Nat) :
    readRam (writeRange m r f n) r' j =
      if r = r' ∧ j < n ∧ j < r.words then keptBits r (f j) else readRam m r' j := by
  induction n with
  | zero => simp [writeRange]
  | succ n ih =>
    rw [writeRange, readRam_writeRam, ih]
    by_cases h : n = j
    · subst h; by_cases hr : r = r' <;> simp [hr]
    · have : (j < n + 1) ↔ j < n := by omega
      simp [h, this]

/-- Storing the first `n` words of a RAM changes no byte outside them. -/
theorem readByte_writeRange_outside (m : Memory) (r : Ram) (f : Nat → Word) (n : Nat) {a : Nat}
    (h : ∀ j < n, a < ramAddr r j ∨ ramAddr r j + 4 ≤ a) : readByte (writeRange m r f n) a = readByte m a := by
  induction n with
  | zero => rfl
  | succ n ih =>
    rw [writeRange, readByte_writeRam_outside _ _ _ _ (h n (by omega)), ih fun j hj => h j (by omega)]

/-- Bits 31:16 of a `RAW` word read 0 (10_state R51). -/
theorem readRam_raw_high (m : Memory) {i : Nat} (h : i < Config.lineMax) : (readRam m .raw i).toNat < 65536 := by
  have h' : i < Ram.raw.words := h
  have s2 := isStored_ramAddr (k := 2) h' (by omega)
  have s3 := isStored_ramAddr (k := 3) h' (by omega)
  have z2 : readByte m (ramAddr .raw i + 2) = 0#8 := readByte_unstored _ (by simpa using s2)
  have z3 : readByte m (ramAddr .raw i + 3) = 0#8 := readByte_unstored _ (by simpa using s3)
  have l0 := (readByte m (ramAddr .raw i)).isLt
  have l1 := (readByte m (ramAddr .raw i + 1)).isLt
  rw [readRam, if_pos h', readWord, z2, z3]
  simp only [wordOfBytes, BitVec.toNat_append, BitVec.toNat_ofNat, Nat.zero_mod, Nat.zero_shiftLeft, Nat.zero_or]
  refine Nat.or_lt_two_pow (n := 16) ?_ (by omega)
  rw [Nat.shiftLeft_eq]
  omega

end Sys2Proof.Machine
end

