-- ==== Sys2Proof/Laws/State.lean ====
section
/-! SUPPORT. One lemma per field per named update of the state, so that no proof unfolds a record update. -/

namespace Sys2Proof.Machine

@[simp] theorem State.withMem_scanMode (s : State) (m : Memory) : (s.withMem m).scanMode = s.scanMode := rfl
@[simp] theorem State.withMem_pMode (s : State) (m : Memory) : (s.withMem m).pMode = s.pMode := rfl
@[simp] theorem State.withMem_done (s : State) (m : Memory) : (s.withMem m).done = s.done := rfl
@[simp] theorem State.withMem_err (s : State) (m : Memory) : (s.withMem m).err = s.err := rfl
@[simp] theorem State.withMem_errCode (s : State) (m : Memory) : (s.withMem m).errCode = s.errCode := rfl
@[simp] theorem State.withMem_alignMiss (s : State) (m : Memory) : (s.withMem m).alignMiss = s.alignMiss := rfl
@[simp] theorem State.withMem_rowLimit (s : State) (m : Memory) : (s.withMem m).rowLimit = s.rowLimit := rfl
@[simp] theorem State.withMem_doneIe (s : State) (m : Memory) : (s.withMem m).doneIe = s.doneIe := rfl
@[simp] theorem State.withMem_errIe (s : State) (m : Memory) : (s.withMem m).errIe = s.errIe := rfl
@[simp] theorem State.withMem_row (s : State) (m : Memory) : (s.withMem m).row = s.row := rfl
@[simp] theorem State.withMem_offset (s : State) (m : Memory) : (s.withMem m).offset = s.offset := rfl
@[simp] theorem State.withMem_fallIdx (s : State) (m : Memory) : (s.withMem m).fallIdx = s.fallIdx := rfl
@[simp] theorem State.withMem_riseIdx (s : State) (m : Memory) : (s.withMem m).riseIdx = s.riseIdx := rfl
@[simp] theorem State.withMem_cfg (s : State) (m : Memory) : (s.withMem m).cfg = s.cfg := rfl
@[simp] theorem State.withMem_mem (s : State) (m : Memory) : (s.withMem m).mem = m := rfl
@[simp] theorem State.withMem_busy (s : State) (m : Memory) : (s.withMem m).busy = s.busy := rfl
@[simp] theorem State.withMem_pending (s : State) (m : Memory) : (s.withMem m).pending = s.pending := rfl
@[simp] theorem State.withMem_agenda (s : State) (m : Memory) : (s.withMem m).agenda = s.agenda := rfl
@[simp] theorem State.withMem_rdata (s : State) (m : Memory) : (s.withMem m).rdata = s.rdata := rfl
@[simp] theorem State.withMem_draws (s : State) (m : Memory) : (s.withMem m).draws = s.draws := rfl

@[simp] theorem State.withDraws_scanMode (s : State) (n : Nat) : (s.withDraws n).scanMode = s.scanMode := rfl
@[simp] theorem State.withDraws_pMode (s : State) (n : Nat) : (s.withDraws n).pMode = s.pMode := rfl
@[simp] theorem State.withDraws_done (s : State) (n : Nat) : (s.withDraws n).done = s.done := rfl
@[simp] theorem State.withDraws_err (s : State) (n : Nat) : (s.withDraws n).err = s.err := rfl
@[simp] theorem State.withDraws_errCode (s : State) (n : Nat) : (s.withDraws n).errCode = s.errCode := rfl
@[simp] theorem State.withDraws_alignMiss (s : State) (n : Nat) : (s.withDraws n).alignMiss = s.alignMiss := rfl
@[simp] theorem State.withDraws_rowLimit (s : State) (n : Nat) : (s.withDraws n).rowLimit = s.rowLimit := rfl
@[simp] theorem State.withDraws_doneIe (s : State) (n : Nat) : (s.withDraws n).doneIe = s.doneIe := rfl
@[simp] theorem State.withDraws_errIe (s : State) (n : Nat) : (s.withDraws n).errIe = s.errIe := rfl
@[simp] theorem State.withDraws_row (s : State) (n : Nat) : (s.withDraws n).row = s.row := rfl
@[simp] theorem State.withDraws_offset (s : State) (n : Nat) : (s.withDraws n).offset = s.offset := rfl
@[simp] theorem State.withDraws_fallIdx (s : State) (n : Nat) : (s.withDraws n).fallIdx = s.fallIdx := rfl
@[simp] theorem State.withDraws_riseIdx (s : State) (n : Nat) : (s.withDraws n).riseIdx = s.riseIdx := rfl
@[simp] theorem State.withDraws_cfg (s : State) (n : Nat) : (s.withDraws n).cfg = s.cfg := rfl
@[simp] theorem State.withDraws_mem (s : State) (n : Nat) : (s.withDraws n).mem = s.mem := rfl
@[simp] theorem State.withDraws_busy (s : State) (n : Nat) : (s.withDraws n).busy = s.busy := rfl
@[simp] theorem State.withDraws_pending (s : State) (n : Nat) : (s.withDraws n).pending = s.pending := rfl
@[simp] theorem State.withDraws_agenda (s : State) (n : Nat) : (s.withDraws n).agenda = s.agenda := rfl
@[simp] theorem State.withDraws_rdata (s : State) (n : Nat) : (s.withDraws n).rdata = s.rdata := rfl
@[simp] theorem State.withDraws_draws (s : State) (n : Nat) : (s.withDraws n).draws = n := rfl

@[simp] theorem State.withRdata_scanMode (s : State) (w : Word) : (s.withRdata w).scanMode = s.scanMode := rfl
@[simp] theorem State.withRdata_pMode (s : State) (w : Word) : (s.withRdata w).pMode = s.pMode := rfl
@[simp] theorem State.withRdata_done (s : State) (w : Word) : (s.withRdata w).done = s.done := rfl
@[simp] theorem State.withRdata_err (s : State) (w : Word) : (s.withRdata w).err = s.err := rfl
@[simp] theorem State.withRdata_errCode (s : State) (w : Word) : (s.withRdata w).errCode = s.errCode := rfl
@[simp] theorem State.withRdata_alignMiss (s : State) (w : Word) : (s.withRdata w).alignMiss = s.alignMiss := rfl
@[simp] theorem State.withRdata_rowLimit (s : State) (w : Word) : (s.withRdata w).rowLimit = s.rowLimit := rfl
@[simp] theorem State.withRdata_doneIe (s : State) (w : Word) : (s.withRdata w).doneIe = s.doneIe := rfl
@[simp] theorem State.withRdata_errIe (s : State) (w : Word) : (s.withRdata w).errIe = s.errIe := rfl
@[simp] theorem State.withRdata_row (s : State) (w : Word) : (s.withRdata w).row = s.row := rfl
@[simp] theorem State.withRdata_offset (s : State) (w : Word) : (s.withRdata w).offset = s.offset := rfl
@[simp] theorem State.withRdata_fallIdx (s : State) (w : Word) : (s.withRdata w).fallIdx = s.fallIdx := rfl
@[simp] theorem State.withRdata_riseIdx (s : State) (w : Word) : (s.withRdata w).riseIdx = s.riseIdx := rfl
@[simp] theorem State.withRdata_cfg (s : State) (w : Word) : (s.withRdata w).cfg = s.cfg := rfl
@[simp] theorem State.withRdata_mem (s : State) (w : Word) : (s.withRdata w).mem = s.mem := rfl
@[simp] theorem State.withRdata_busy (s : State) (w : Word) : (s.withRdata w).busy = s.busy := rfl
@[simp] theorem State.withRdata_pending (s : State) (w : Word) : (s.withRdata w).pending = s.pending := rfl
@[simp] theorem State.withRdata_agenda (s : State) (w : Word) : (s.withRdata w).agenda = s.agenda := rfl
@[simp] theorem State.withRdata_rdata (s : State) (w : Word) : (s.withRdata w).rdata = w := rfl
@[simp] theorem State.withRdata_draws (s : State) (w : Word) : (s.withRdata w).draws = s.draws := rfl

@[simp] theorem State.withAgenda_scanMode (s : State) (l : List Turn) : (s.withAgenda l).scanMode = s.scanMode := rfl
@[simp] theorem State.withAgenda_pMode (s : State) (l : List Turn) : (s.withAgenda l).pMode = s.pMode := rfl
@[simp] theorem State.withAgenda_done (s : State) (l : List Turn) : (s.withAgenda l).done = s.done := rfl
@[simp] theorem State.withAgenda_err (s : State) (l : List Turn) : (s.withAgenda l).err = s.err := rfl
@[simp] theorem State.withAgenda_errCode (s : State) (l : List Turn) : (s.withAgenda l).errCode = s.errCode := rfl
@[simp] theorem State.withAgenda_alignMiss (s : State) (l : List Turn) : (s.withAgenda l).alignMiss = s.alignMiss := rfl
@[simp] theorem State.withAgenda_rowLimit (s : State) (l : List Turn) : (s.withAgenda l).rowLimit = s.rowLimit := rfl
@[simp] theorem State.withAgenda_doneIe (s : State) (l : List Turn) : (s.withAgenda l).doneIe = s.doneIe := rfl
@[simp] theorem State.withAgenda_errIe (s : State) (l : List Turn) : (s.withAgenda l).errIe = s.errIe := rfl
@[simp] theorem State.withAgenda_row (s : State) (l : List Turn) : (s.withAgenda l).row = s.row := rfl
@[simp] theorem State.withAgenda_offset (s : State) (l : List Turn) : (s.withAgenda l).offset = s.offset := rfl
@[simp] theorem State.withAgenda_fallIdx (s : State) (l : List Turn) : (s.withAgenda l).fallIdx = s.fallIdx := rfl
@[simp] theorem State.withAgenda_riseIdx (s : State) (l : List Turn) : (s.withAgenda l).riseIdx = s.riseIdx := rfl
@[simp] theorem State.withAgenda_cfg (s : State) (l : List Turn) : (s.withAgenda l).cfg = s.cfg := rfl
@[simp] theorem State.withAgenda_mem (s : State) (l : List Turn) : (s.withAgenda l).mem = s.mem := rfl
@[simp] theorem State.withAgenda_busy (s : State) (l : List Turn) : (s.withAgenda l).busy = s.busy := rfl
@[simp] theorem State.withAgenda_pending (s : State) (l : List Turn) : (s.withAgenda l).pending = s.pending := rfl
@[simp] theorem State.withAgenda_agenda (s : State) (l : List Turn) : (s.withAgenda l).agenda = l := rfl
@[simp] theorem State.withAgenda_rdata (s : State) (l : List Turn) : (s.withAgenda l).rdata = s.rdata := rfl
@[simp] theorem State.withAgenda_draws (s : State) (l : List Turn) : (s.withAgenda l).draws = s.draws := rfl

@[simp] theorem State.withRow_scanMode (s : State) (r : BitVec 16) : (s.withRow r).scanMode = s.scanMode := rfl
@[simp] theorem State.withRow_pMode (s : State) (r : BitVec 16) : (s.withRow r).pMode = s.pMode := rfl
@[simp] theorem State.withRow_done (s : State) (r : BitVec 16) : (s.withRow r).done = s.done := rfl
@[simp] theorem State.withRow_err (s : State) (r : BitVec 16) : (s.withRow r).err = s.err := rfl
@[simp] theorem State.withRow_errCode (s : State) (r : BitVec 16) : (s.withRow r).errCode = s.errCode := rfl
@[simp] theorem State.withRow_alignMiss (s : State) (r : BitVec 16) : (s.withRow r).alignMiss = s.alignMiss := rfl
@[simp] theorem State.withRow_rowLimit (s : State) (r : BitVec 16) : (s.withRow r).rowLimit = s.rowLimit := rfl
@[simp] theorem State.withRow_doneIe (s : State) (r : BitVec 16) : (s.withRow r).doneIe = s.doneIe := rfl
@[simp] theorem State.withRow_errIe (s : State) (r : BitVec 16) : (s.withRow r).errIe = s.errIe := rfl
@[simp] theorem State.withRow_row (s : State) (r : BitVec 16) : (s.withRow r).row = r := rfl
@[simp] theorem State.withRow_offset (s : State) (r : BitVec 16) : (s.withRow r).offset = s.offset := rfl
@[simp] theorem State.withRow_fallIdx (s : State) (r : BitVec 16) : (s.withRow r).fallIdx = s.fallIdx := rfl
@[simp] theorem State.withRow_riseIdx (s : State) (r : BitVec 16) : (s.withRow r).riseIdx = s.riseIdx := rfl
@[simp] theorem State.withRow_cfg (s : State) (r : BitVec 16) : (s.withRow r).cfg = s.cfg := rfl
@[simp] theorem State.withRow_mem (s : State) (r : BitVec 16) : (s.withRow r).mem = s.mem := rfl
@[simp] theorem State.withRow_busy (s : State) (r : BitVec 16) : (s.withRow r).busy = s.busy := rfl
@[simp] theorem State.withRow_pending (s : State) (r : BitVec 16) : (s.withRow r).pending = s.pending := rfl
@[simp] theorem State.withRow_agenda (s : State) (r : BitVec 16) : (s.withRow r).agenda = s.agenda := rfl
@[simp] theorem State.withRow_rdata (s : State) (r : BitVec 16) : (s.withRow r).rdata = s.rdata := rfl
@[simp] theorem State.withRow_draws (s : State) (r : BitVec 16) : (s.withRow r).draws = s.draws := rfl

@[simp] theorem State.withOffset_scanMode (s : State) (o : BitVec 16) : (s.withOffset o).scanMode = s.scanMode := rfl
@[simp] theorem State.withOffset_pMode (s : State) (o : BitVec 16) : (s.withOffset o).pMode = s.pMode := rfl
@[simp] theorem State.withOffset_done (s : State) (o : BitVec 16) : (s.withOffset o).done = s.done := rfl
@[simp] theorem State.withOffset_err (s : State) (o : BitVec 16) : (s.withOffset o).err = s.err := rfl
@[simp] theorem State.withOffset_errCode (s : State) (o : BitVec 16) : (s.withOffset o).errCode = s.errCode := rfl
@[simp] theorem State.withOffset_alignMiss (s : State) (o : BitVec 16) : (s.withOffset o).alignMiss = s.alignMiss := rfl
@[simp] theorem State.withOffset_rowLimit (s : State) (o : BitVec 16) : (s.withOffset o).rowLimit = s.rowLimit := rfl
@[simp] theorem State.withOffset_doneIe (s : State) (o : BitVec 16) : (s.withOffset o).doneIe = s.doneIe := rfl
@[simp] theorem State.withOffset_errIe (s : State) (o : BitVec 16) : (s.withOffset o).errIe = s.errIe := rfl
@[simp] theorem State.withOffset_row (s : State) (o : BitVec 16) : (s.withOffset o).row = s.row := rfl
@[simp] theorem State.withOffset_offset (s : State) (o : BitVec 16) : (s.withOffset o).offset = o := rfl
@[simp] theorem State.withOffset_fallIdx (s : State) (o : BitVec 16) : (s.withOffset o).fallIdx = s.fallIdx := rfl
@[simp] theorem State.withOffset_riseIdx (s : State) (o : BitVec 16) : (s.withOffset o).riseIdx = s.riseIdx := rfl
@[simp] theorem State.withOffset_cfg (s : State) (o : BitVec 16) : (s.withOffset o).cfg = s.cfg := rfl
@[simp] theorem State.withOffset_mem (s : State) (o : BitVec 16) : (s.withOffset o).mem = s.mem := rfl
@[simp] theorem State.withOffset_busy (s : State) (o : BitVec 16) : (s.withOffset o).busy = s.busy := rfl
@[simp] theorem State.withOffset_pending (s : State) (o : BitVec 16) : (s.withOffset o).pending = s.pending := rfl
@[simp] theorem State.withOffset_agenda (s : State) (o : BitVec 16) : (s.withOffset o).agenda = s.agenda := rfl
@[simp] theorem State.withOffset_rdata (s : State) (o : BitVec 16) : (s.withOffset o).rdata = s.rdata := rfl
@[simp] theorem State.withOffset_draws (s : State) (o : BitVec 16) : (s.withOffset o).draws = s.draws := rfl

@[simp] theorem State.withCfg_scanMode (s : State) (c : ConfigRegs) : (s.withCfg c).scanMode = s.scanMode := rfl
@[simp] theorem State.withCfg_pMode (s : State) (c : ConfigRegs) : (s.withCfg c).pMode = s.pMode := rfl
@[simp] theorem State.withCfg_done (s : State) (c : ConfigRegs) : (s.withCfg c).done = s.done := rfl
@[simp] theorem State.withCfg_err (s : State) (c : ConfigRegs) : (s.withCfg c).err = s.err := rfl
@[simp] theorem State.withCfg_errCode (s : State) (c : ConfigRegs) : (s.withCfg c).errCode = s.errCode := rfl
@[simp] theorem State.withCfg_alignMiss (s : State) (c : ConfigRegs) : (s.withCfg c).alignMiss = s.alignMiss := rfl
@[simp] theorem State.withCfg_rowLimit (s : State) (c : ConfigRegs) : (s.withCfg c).rowLimit = s.rowLimit := rfl
@[simp] theorem State.withCfg_doneIe (s : State) (c : ConfigRegs) : (s.withCfg c).doneIe = s.doneIe := rfl
@[simp] theorem State.withCfg_errIe (s : State) (c : ConfigRegs) : (s.withCfg c).errIe = s.errIe := rfl
@[simp] theorem State.withCfg_row (s : State) (c : ConfigRegs) : (s.withCfg c).row = s.row := rfl
@[simp] theorem State.withCfg_offset (s : State) (c : ConfigRegs) : (s.withCfg c).offset = s.offset := rfl
@[simp] theorem State.withCfg_fallIdx (s : State) (c : ConfigRegs) : (s.withCfg c).fallIdx = s.fallIdx := rfl
@[simp] theorem State.withCfg_riseIdx (s : State) (c : ConfigRegs) : (s.withCfg c).riseIdx = s.riseIdx := rfl
@[simp] theorem State.withCfg_cfg (s : State) (c : ConfigRegs) : (s.withCfg c).cfg = c := rfl
@[simp] theorem State.withCfg_mem (s : State) (c : ConfigRegs) : (s.withCfg c).mem = s.mem := rfl
@[simp] theorem State.withCfg_busy (s : State) (c : ConfigRegs) : (s.withCfg c).busy = s.busy := rfl
@[simp] theorem State.withCfg_pending (s : State) (c : ConfigRegs) : (s.withCfg c).pending = s.pending := rfl
@[simp] theorem State.withCfg_agenda (s : State) (c : ConfigRegs) : (s.withCfg c).agenda = s.agenda := rfl
@[simp] theorem State.withCfg_rdata (s : State) (c : ConfigRegs) : (s.withCfg c).rdata = s.rdata := rfl
@[simp] theorem State.withCfg_draws (s : State) (c : ConfigRegs) : (s.withCfg c).draws = s.draws := rfl

@[simp] theorem State.withModes_scanMode (s : State) (a b : Bool) : (s.withModes a b).scanMode = a := rfl
@[simp] theorem State.withModes_pMode (s : State) (a b : Bool) : (s.withModes a b).pMode = b := rfl
@[simp] theorem State.withModes_done (s : State) (a b : Bool) : (s.withModes a b).done = s.done := rfl
@[simp] theorem State.withModes_err (s : State) (a b : Bool) : (s.withModes a b).err = s.err := rfl
@[simp] theorem State.withModes_errCode (s : State) (a b : Bool) : (s.withModes a b).errCode = s.errCode := rfl
@[simp] theorem State.withModes_alignMiss (s : State) (a b : Bool) : (s.withModes a b).alignMiss = s.alignMiss := rfl
@[simp] theorem State.withModes_rowLimit (s : State) (a b : Bool) : (s.withModes a b).rowLimit = s.rowLimit := rfl
@[simp] theorem State.withModes_doneIe (s : State) (a b : Bool) : (s.withModes a b).doneIe = s.doneIe := rfl
@[simp] theorem State.withModes_errIe (s : State) (a b : Bool) : (s.withModes a b).errIe = s.errIe := rfl
@[simp] theorem State.withModes_row (s : State) (a b : Bool) : (s.withModes a b).row = s.row := rfl
@[simp] theorem State.withModes_offset (s : State) (a b : Bool) : (s.withModes a b).offset = s.offset := rfl
@[simp] theorem State.withModes_fallIdx (s : State) (a b : Bool) : (s.withModes a b).fallIdx = s.fallIdx := rfl
@[simp] theorem State.withModes_riseIdx (s : State) (a b : Bool) : (s.withModes a b).riseIdx = s.riseIdx := rfl
@[simp] theorem State.withModes_cfg (s : State) (a b : Bool) : (s.withModes a b).cfg = s.cfg := rfl
@[simp] theorem State.withModes_mem (s : State) (a b : Bool) : (s.withModes a b).mem = s.mem := rfl
@[simp] theorem State.withModes_busy (s : State) (a b : Bool) : (s.withModes a b).busy = s.busy := rfl
@[simp] theorem State.withModes_pending (s : State) (a b : Bool) : (s.withModes a b).pending = s.pending := rfl
@[simp] theorem State.withModes_agenda (s : State) (a b : Bool) : (s.withModes a b).agenda = s.agenda := rfl
@[simp] theorem State.withModes_rdata (s : State) (a b : Bool) : (s.withModes a b).rdata = s.rdata := rfl
@[simp] theorem State.withModes_draws (s : State) (a b : Bool) : (s.withModes a b).draws = s.draws := rfl

@[simp] theorem State.withEnables_scanMode (s : State) (a b : Bool) : (s.withEnables a b).scanMode = s.scanMode := rfl
@[simp] theorem State.withEnables_pMode (s : State) (a b : Bool) : (s.withEnables a b).pMode = s.pMode := rfl
@[simp] theorem State.withEnables_done (s : State) (a b : Bool) : (s.withEnables a b).done = s.done := rfl
@[simp] theorem State.withEnables_err (s : State) (a b : Bool) : (s.withEnables a b).err = s.err := rfl
@[simp] theorem State.withEnables_errCode (s : State) (a b : Bool) : (s.withEnables a b).errCode = s.errCode := rfl
@[simp] theorem State.withEnables_alignMiss (s : State) (a b : Bool) : (s.withEnables a b).alignMiss = s.alignMiss := rfl
@[simp] theorem State.withEnables_rowLimit (s : State) (a b : Bool) : (s.withEnables a b).rowLimit = s.rowLimit := rfl
@[simp] theorem State.withEnables_doneIe (s : State) (a b : Bool) : (s.withEnables a b).doneIe = a := rfl
@[simp] theorem State.withEnables_errIe (s : State) (a b : Bool) : (s.withEnables a b).errIe = b := rfl
@[simp] theorem State.withEnables_row (s : State) (a b : Bool) : (s.withEnables a b).row = s.row := rfl
@[simp] theorem State.withEnables_offset (s : State) (a b : Bool) : (s.withEnables a b).offset = s.offset := rfl
@[simp] theorem State.withEnables_fallIdx (s : State) (a b : Bool) : (s.withEnables a b).fallIdx = s.fallIdx := rfl
@[simp] theorem State.withEnables_riseIdx (s : State) (a b : Bool) : (s.withEnables a b).riseIdx = s.riseIdx := rfl
@[simp] theorem State.withEnables_cfg (s : State) (a b : Bool) : (s.withEnables a b).cfg = s.cfg := rfl
@[simp] theorem State.withEnables_mem (s : State) (a b : Bool) : (s.withEnables a b).mem = s.mem := rfl
@[simp] theorem State.withEnables_busy (s : State) (a b : Bool) : (s.withEnables a b).busy = s.busy := rfl
@[simp] theorem State.withEnables_pending (s : State) (a b : Bool) : (s.withEnables a b).pending = s.pending := rfl
@[simp] theorem State.withEnables_agenda (s : State) (a b : Bool) : (s.withEnables a b).agenda = s.agenda := rfl
@[simp] theorem State.withEnables_rdata (s : State) (a b : Bool) : (s.withEnables a b).rdata = s.rdata := rfl
@[simp] theorem State.withEnables_draws (s : State) (a b : Bool) : (s.withEnables a b).draws = s.draws := rfl

@[simp] theorem State.withSync_scanMode (s : State) (o f r : BitVec 16) (b : Bool) : (s.withSync o f r b).scanMode = s.scanMode := rfl
@[simp] theorem State.withSync_pMode (s : State) (o f r : BitVec 16) (b : Bool) : (s.withSync o f r b).pMode = s.pMode := rfl
@[simp] theorem State.withSync_done (s : State) (o f r : BitVec 16) (b : Bool) : (s.withSync o f r b).done = s.done := rfl
@[simp] theorem State.withSync_err (s : State) (o f r : BitVec 16) (b : Bool) : (s.withSync o f r b).err = s.err := rfl
@[simp] theorem State.withSync_errCode (s : State) (o f r : BitVec 16) (b : Bool) : (s.withSync o f r b).errCode = s.errCode := rfl
@[simp] theorem State.withSync_alignMiss (s : State) (o f r : BitVec 16) (b : Bool) : (s.withSync o f r b).alignMiss = b := rfl
@[simp] theorem State.withSync_rowLimit (s : State) (o f r : BitVec 16) (b : Bool) : (s.withSync o f r b).rowLimit = s.rowLimit := rfl
@[simp] theorem State.withSync_doneIe (s : State) (o f r : BitVec 16) (b : Bool) : (s.withSync o f r b).doneIe = s.doneIe := rfl
@[simp] theorem State.withSync_errIe (s : State) (o f r : BitVec 16) (b : Bool) : (s.withSync o f r b).errIe = s.errIe := rfl
@[simp] theorem State.withSync_row (s : State) (o f r : BitVec 16) (b : Bool) : (s.withSync o f r b).row = s.row := rfl
@[simp] theorem State.withSync_offset (s : State) (o f r : BitVec 16) (b : Bool) : (s.withSync o f r b).offset = o := rfl
@[simp] theorem State.withSync_fallIdx (s : State) (o f r : BitVec 16) (b : Bool) : (s.withSync o f r b).fallIdx = f := rfl
@[simp] theorem State.withSync_riseIdx (s : State) (o f r : BitVec 16) (b : Bool) : (s.withSync o f r b).riseIdx = r := rfl
@[simp] theorem State.withSync_cfg (s : State) (o f r : BitVec 16) (b : Bool) : (s.withSync o f r b).cfg = s.cfg := rfl
@[simp] theorem State.withSync_mem (s : State) (o f r : BitVec 16) (b : Bool) : (s.withSync o f r b).mem = s.mem := rfl
@[simp] theorem State.withSync_busy (s : State) (o f r : BitVec 16) (b : Bool) : (s.withSync o f r b).busy = s.busy := rfl
@[simp] theorem State.withSync_pending (s : State) (o f r : BitVec 16) (b : Bool) : (s.withSync o f r b).pending = s.pending := rfl
@[simp] theorem State.withSync_agenda (s : State) (o f r : BitVec 16) (b : Bool) : (s.withSync o f r b).agenda = s.agenda := rfl
@[simp] theorem State.withSync_rdata (s : State) (o f r : BitVec 16) (b : Bool) : (s.withSync o f r b).rdata = s.rdata := rfl
@[simp] theorem State.withSync_draws (s : State) (o f r : BitVec 16) (b : Bool) : (s.withSync o f r b).draws = s.draws := rfl

@[simp] theorem State.withRowLimit_scanMode (s : State) : s.withRowLimit.scanMode = s.scanMode := rfl
@[simp] theorem State.withRowLimit_pMode (s : State) : s.withRowLimit.pMode = s.pMode := rfl
@[simp] theorem State.withRowLimit_done (s : State) : s.withRowLimit.done = s.done := rfl
@[simp] theorem State.withRowLimit_err (s : State) : s.withRowLimit.err = s.err := rfl
@[simp] theorem State.withRowLimit_errCode (s : State) : s.withRowLimit.errCode = s.errCode := rfl
@[simp] theorem State.withRowLimit_alignMiss (s : State) : s.withRowLimit.alignMiss = s.alignMiss := rfl
@[simp] theorem State.withRowLimit_rowLimit (s : State) : s.withRowLimit.rowLimit = true := rfl
@[simp] theorem State.withRowLimit_doneIe (s : State) : s.withRowLimit.doneIe = s.doneIe := rfl
@[simp] theorem State.withRowLimit_errIe (s : State) : s.withRowLimit.errIe = s.errIe := rfl
@[simp] theorem State.withRowLimit_row (s : State) : s.withRowLimit.row = s.row := rfl
@[simp] theorem State.withRowLimit_offset (s : State) : s.withRowLimit.offset = s.offset := rfl
@[simp] theorem State.withRowLimit_fallIdx (s : State) : s.withRowLimit.fallIdx = s.fallIdx := rfl
@[simp] theorem State.withRowLimit_riseIdx (s : State) : s.withRowLimit.riseIdx = s.riseIdx := rfl
@[simp] theorem State.withRowLimit_cfg (s : State) : s.withRowLimit.cfg = s.cfg := rfl
@[simp] theorem State.withRowLimit_mem (s : State) : s.withRowLimit.mem = s.mem := rfl
@[simp] theorem State.withRowLimit_busy (s : State) : s.withRowLimit.busy = s.busy := rfl
@[simp] theorem State.withRowLimit_pending (s : State) : s.withRowLimit.pending = s.pending := rfl
@[simp] theorem State.withRowLimit_agenda (s : State) : s.withRowLimit.agenda = s.agenda := rfl
@[simp] theorem State.withRowLimit_rdata (s : State) : s.withRowLimit.rdata = s.rdata := rfl
@[simp] theorem State.withRowLimit_draws (s : State) : s.withRowLimit.draws = s.draws := rfl

@[simp] theorem accept_scanMode (s : State) (i : Instr) : (accept i s).scanMode = s.scanMode := rfl
@[simp] theorem accept_pMode (s : State) (i : Instr) : (accept i s).pMode = s.pMode := rfl
@[simp] theorem accept_done (s : State) (i : Instr) : (accept i s).done = s.done := rfl
@[simp] theorem accept_err (s : State) (i : Instr) : (accept i s).err = s.err := rfl
@[simp] theorem accept_errCode (s : State) (i : Instr) : (accept i s).errCode = s.errCode := rfl
@[simp] theorem accept_alignMiss (s : State) (i : Instr) : (accept i s).alignMiss = s.alignMiss := rfl
@[simp] theorem accept_rowLimit (s : State) (i : Instr) : (accept i s).rowLimit = s.rowLimit := rfl
@[simp] theorem accept_doneIe (s : State) (i : Instr) : (accept i s).doneIe = s.doneIe := rfl
@[simp] theorem accept_errIe (s : State) (i : Instr) : (accept i s).errIe = s.errIe := rfl
@[simp] theorem accept_row (s : State) (i : Instr) : (accept i s).row = s.row := rfl
@[simp] theorem accept_offset (s : State) (i : Instr) : (accept i s).offset = s.offset := rfl
@[simp] theorem accept_fallIdx (s : State) (i : Instr) : (accept i s).fallIdx = s.fallIdx := rfl
@[simp] theorem accept_riseIdx (s : State) (i : Instr) : (accept i s).riseIdx = s.riseIdx := rfl
@[simp] theorem accept_cfg (s : State) (i : Instr) : (accept i s).cfg = s.cfg := rfl
@[simp] theorem accept_mem (s : State) (i : Instr) : (accept i s).mem = s.mem := rfl
@[simp] theorem accept_busy (s : State) (i : Instr) : (accept i s).busy = true := rfl
@[simp] theorem accept_pending (s : State) (i : Instr) : (accept i s).pending = some i := rfl
@[simp] theorem accept_agenda (s : State) (i : Instr) : (accept i s).agenda = s.agenda := rfl
@[simp] theorem accept_rdata (s : State) (i : Instr) : (accept i s).rdata = s.rdata := rfl
@[simp] theorem accept_draws (s : State) (i : Instr) : (accept i s).draws = s.draws := rfl

@[simp] theorem complete_scanMode (s : State) : (complete s).scanMode = s.scanMode := rfl
@[simp] theorem complete_pMode (s : State) : (complete s).pMode = s.pMode := rfl
@[simp] theorem complete_done (s : State) : (complete s).done = true := rfl
@[simp] theorem complete_err (s : State) : (complete s).err = s.err := rfl
@[simp] theorem complete_errCode (s : State) : (complete s).errCode = s.errCode := rfl
@[simp] theorem complete_alignMiss (s : State) : (complete s).alignMiss = s.alignMiss := rfl
@[simp] theorem complete_rowLimit (s : State) : (complete s).rowLimit = s.rowLimit := rfl
@[simp] theorem complete_doneIe (s : State) : (complete s).doneIe = s.doneIe := rfl
@[simp] theorem complete_errIe (s : State) : (complete s).errIe = s.errIe := rfl
@[simp] theorem complete_row (s : State) : (complete s).row = s.row := rfl
@[simp] theorem complete_offset (s : State) : (complete s).offset = s.offset := rfl
@[simp] theorem complete_fallIdx (s : State) : (complete s).fallIdx = s.fallIdx := rfl
@[simp] theorem complete_riseIdx (s : State) : (complete s).riseIdx = s.riseIdx := rfl
@[simp] theorem complete_cfg (s : State) : (complete s).cfg = s.cfg := rfl
@[simp] theorem complete_mem (s : State) : (complete s).mem = s.mem := rfl
@[simp] theorem complete_busy (s : State) : (complete s).busy = false := rfl
@[simp] theorem complete_pending (s : State) : (complete s).pending = s.pending := rfl
@[simp] theorem complete_agenda (s : State) : (complete s).agenda = s.agenda := rfl
@[simp] theorem complete_rdata (s : State) : (complete s).rdata = s.rdata := rfl
@[simp] theorem complete_draws (s : State) : (complete s).draws = s.draws := rfl

@[simp] theorem raiseErr_scanMode (s : State) (c : ErrCode) : (raiseErr c s).scanMode = s.scanMode := rfl
@[simp] theorem raiseErr_pMode (s : State) (c : ErrCode) : (raiseErr c s).pMode = s.pMode := rfl
@[simp] theorem raiseErr_done (s : State) (c : ErrCode) : (raiseErr c s).done = s.done := rfl
@[simp] theorem raiseErr_err (s : State) (c : ErrCode) : (raiseErr c s).err = true := rfl
@[simp] theorem raiseErr_errCode (s : State) (c : ErrCode) : (raiseErr c s).errCode = (if s.err then s.errCode else c) := rfl
@[simp] theorem raiseErr_alignMiss (s : State) (c : ErrCode) : (raiseErr c s).alignMiss = s.alignMiss := rfl
@[simp] theorem raiseErr_rowLimit (s : State) (c : ErrCode) : (raiseErr c s).rowLimit = s.rowLimit := rfl
@[simp] theorem raiseErr_doneIe (s : State) (c : ErrCode) : (raiseErr c s).doneIe = s.doneIe := rfl
@[simp] theorem raiseErr_errIe (s : State) (c : ErrCode) : (raiseErr c s).errIe = s.errIe := rfl
@[simp] theorem raiseErr_row (s : State) (c : ErrCode) : (raiseErr c s).row = s.row := rfl
@[simp] theorem raiseErr_offset (s : State) (c : ErrCode) : (raiseErr c s).offset = s.offset := rfl
@[simp] theorem raiseErr_fallIdx (s : State) (c : ErrCode) : (raiseErr c s).fallIdx = s.fallIdx := rfl
@[simp] theorem raiseErr_riseIdx (s : State) (c : ErrCode) : (raiseErr c s).riseIdx = s.riseIdx := rfl
@[simp] theorem raiseErr_cfg (s : State) (c : ErrCode) : (raiseErr c s).cfg = s.cfg := rfl
@[simp] theorem raiseErr_mem (s : State) (c : ErrCode) : (raiseErr c s).mem = s.mem := rfl
@[simp] theorem raiseErr_busy (s : State) (c : ErrCode) : (raiseErr c s).busy = s.busy := rfl
@[simp] theorem raiseErr_pending (s : State) (c : ErrCode) : (raiseErr c s).pending = s.pending := rfl
@[simp] theorem raiseErr_agenda (s : State) (c : ErrCode) : (raiseErr c s).agenda = s.agenda := rfl
@[simp] theorem raiseErr_rdata (s : State) (c : ErrCode) : (raiseErr c s).rdata = s.rdata := rfl
@[simp] theorem raiseErr_draws (s : State) (c : ErrCode) : (raiseErr c s).draws = s.draws := rfl

@[simp] theorem clearStatus_scanMode (s : State) (w : Word) : (clearStatus w s).scanMode = s.scanMode := rfl
@[simp] theorem clearStatus_pMode (s : State) (w : Word) : (clearStatus w s).pMode = s.pMode := rfl
@[simp] theorem clearStatus_done (s : State) (w : Word) : (clearStatus w s).done = (s.done && !w.getLsbD 1) := rfl
@[simp] theorem clearStatus_err (s : State) (w : Word) : (clearStatus w s).err = (s.err && !w.getLsbD 2) := rfl
@[simp] theorem clearStatus_errCode (s : State) (w : Word) : (clearStatus w s).errCode = (if w.getLsbD 2 then .none else s.errCode) := rfl
@[simp] theorem clearStatus_alignMiss (s : State) (w : Word) : (clearStatus w s).alignMiss = s.alignMiss := rfl
@[simp] theorem clearStatus_rowLimit (s : State) (w : Word) : (clearStatus w s).rowLimit = (s.rowLimit && !w.getLsbD 4) := rfl
@[simp] theorem clearStatus_doneIe (s : State) (w : Word) : (clearStatus w s).doneIe = s.doneIe := rfl
@[simp] theorem clearStatus_errIe (s : State) (w : Word) : (clearStatus w s).errIe = s.errIe := rfl
@[simp] theorem clearStatus_row (s : State) (w : Word) : (clearStatus w s).row = s.row := rfl
@[simp] theorem clearStatus_offset (s : State) (w : Word) : (clearStatus w s).offset = s.offset := rfl
@[simp] theorem clearStatus_fallIdx (s : State) (w : Word) : (clearStatus w s).fallIdx = s.fallIdx := rfl
@[simp] theorem clearStatus_riseIdx (s : State) (w : Word) : (clearStatus w s).riseIdx = s.riseIdx := rfl
@[simp] theorem clearStatus_cfg (s : State) (w : Word) : (clearStatus w s).cfg = s.cfg := rfl
@[simp] theorem clearStatus_mem (s : State) (w : Word) : (clearStatus w s).mem = s.mem := rfl
@[simp] theorem clearStatus_busy (s : State) (w : Word) : (clearStatus w s).busy = s.busy := rfl
@[simp] theorem clearStatus_pending (s : State) (w : Word) : (clearStatus w s).pending = s.pending := rfl
@[simp] theorem clearStatus_agenda (s : State) (w : Word) : (clearStatus w s).agenda = s.agenda := rfl
@[simp] theorem clearStatus_rdata (s : State) (w : Word) : (clearStatus w s).rdata = s.rdata := rfl
@[simp] theorem clearStatus_draws (s : State) (w : Word) : (clearStatus w s).draws = s.draws := rfl

end Sys2Proof.Machine
end

