-- ==== Sys2Proof/Laws/Effects.lean ====
section
/-! SUPPORT. What each effect can do: one lemma per effect, so that no proof unfolds it again. -/

namespace Sys2Proof.Machine

/-- The effect of a command without the end of its completion step. -/
def effectOf : Instr → State → State
  | .nop => id
  | .frameStart => frameStartEffect
  | .filter => filterEffect
  | .sync => syncEffect
  | .demod => demodEffect
  | .color => colorEffect
  | .line => lineEffect

/-- Every command completes: its effect, then `busy <- 0` and `DONE <- 1` (40_command_engine R132). -/
theorem exec_eq (i : Instr) (s : State) : exec i s = .next (complete (effectOf i s)) := by
  cases i <;> rfl

/-- All a SYNC stage can do: write `OFFSET`, `SYNC_POS` and `ALIGN_MISS`. -/
theorem syncEffect_eq (s : State) : ∃ o f r b, syncEffect s = s.withSync o f r b := by
  unfold syncEffect
  split
  · exact ⟨_, _, _, _, rfl⟩
  · split
    · exact ⟨_, _, _, _, rfl⟩
    · exact ⟨_, _, _, _, rfl⟩

/-- All the stages of a line can do. -/
theorem lineStages_eq (s : State) : ∃ m o f r b, lineStages s = (s.withSync o f r b).withMem m := by
  obtain ⟨o, f, r, b, h⟩ := syncEffect_eq (filterEffect s)
  exact ⟨_, o, f, r, b, by simp only [lineStages, h, colorEffect, demodEffect]; rfl⟩

/-- The memory after the stages of a line, one stage after another. -/
theorem lineStages_mem (s : State) :
    (lineStages s).mem =
      writeRange (demodMem (syncEffect (filterEffect s))) .pix (colorPixel (demodEffect (syncEffect (filterEffect s))))
        (npix s.cfg) := by
  obtain ⟨o, f, r, b, h⟩ := syncEffect_eq (filterEffect s)
  simp only [lineStages, h, colorEffect, demodEffect]
  rfl

/-- The stages of a line change nothing after their SYNC stage but memory. -/
theorem lineStages_after_sync (s : State) : ∃ m, lineStages s = (syncEffect (filterEffect s)).withMem m := by
  have last : ∀ t : State, ∃ m, colorEffect (demodEffect t) = t.withMem m := fun t => ⟨_, rfl⟩
  exact last _

theorem syncEffect_mem (s : State) : (syncEffect s).mem = s.mem := by
  obtain ⟨o, f, r, b, h⟩ := syncEffect_eq s
  rw [h]; rfl

theorem syncEffect_cfg (s : State) : (syncEffect s).cfg = s.cfg := by
  obtain ⟨o, f, r, b, h⟩ := syncEffect_eq s
  rw [h]; rfl

/-! ### No stage reads what the end of a completion step writes (40_command_engine R136) -/

theorem syncEffect_complete (s : State) : syncEffect (complete s) = complete (syncEffect s) := by
  have h1 : fallWindow (complete s) = fallWindow s := rfl
  have h2 : ∀ f, rises (complete s) f = rises s f := fun _ => rfl
  unfold syncEffect
  rw [h1]
  cases fallWindow s with
  | none => rfl
  | some f =>
    simp only [h2]
    cases (rises s f).min? <;> rfl

theorem demodEffect_complete (s : State) : demodEffect (complete s) = complete (demodEffect s) := rfl

theorem colorEffect_complete (s : State) : colorEffect (complete s) = complete (colorEffect s) := rfl

/-- The named fields any effect leaves alone. -/
theorem effectOf_frame (i : Instr) (s : State) :
    effectOf i s = { s with
      mem := (effectOf i s).mem, row := (effectOf i s).row, offset := (effectOf i s).offset,
      fallIdx := (effectOf i s).fallIdx, riseIdx := (effectOf i s).riseIdx, alignMiss := (effectOf i s).alignMiss,
      rowLimit := (effectOf i s).rowLimit } := by
  cases i
  case sync =>
    obtain ⟨o, f, r, b, h⟩ := syncEffect_eq s
    show syncEffect s = _
    simp only [effectOf, h]; rfl
  case line =>
    obtain ⟨m, o, f, r, b, h⟩ := lineStages_eq s
    simp only [effectOf, lineEffect, h]
    split_ifs <;> rfl
  all_goals rfl

/-- Every effect keeps the canonical form of memory. -/
theorem effectOf_wf (i : Instr) {s : State} (h : s.mem.wf) : (effectOf i s).mem.wf := by
  have demod : ∀ t : State, t.mem.wf → (demodMem t).wf := fun t ht =>
    writeRange_wf (writeRange_wf (writeRange_wf ht _ _ _) _ _ _) _ _ _
  cases i
  case filter => exact writeRange_wf h _ _ _
  case sync => show (syncEffect s).mem.wf; rw [syncEffect_mem]; exact h
  case demod => exact demod s h
  case color => exact writeRange_wf h _ _ _
  case line =>
    show (lineEffect s).mem.wf
    unfold lineEffect
    split_ifs
    · exact h
    · show (lineStages s).mem.wf
      rw [lineStages_mem]
      refine writeRange_wf (demod _ ?_) _ _ _
      rw [syncEffect_mem]
      exact writeRange_wf h _ _ _
  all_goals exact h

/-- No effect changes a byte outside the RAM words of its write set. -/
theorem effectOf_outside (i : Instr) (s : State) {a : Nat}
    (h : ∀ r k, inRamWriteSet i s.cfg r k = true → a < ramAddr r k ∨ ramAddr r k + 4 ≤ a) :
    readByte (effectOf i s).mem a = readByte s.mem a := by
  have ws : ∀ r n, (r, n) ∈ ramWriteSet i s.cfg → ∀ j < n, a < ramAddr r j ∨ ramAddr r j + 4 ≤ a := by
    intro r n hm j hj
    refine h r j ?_
    simp only [inRamWriteSet, List.any_eq_true]
    exact ⟨(r, n), hm, by simp [hj]⟩
  have demod : ∀ t : State, t.cfg = s.cfg → (∀ r n, (r, n) ∈ ramWriteSet .demod s.cfg → ∀ j < n, a < ramAddr r j ∨
      ramAddr r j + 4 ≤ a) → readByte (demodMem t) a = readByte t.mem a := by
    intro t ht hw
    unfold demodMem
    rw [readByte_writeRange_outside, readByte_writeRange_outside, readByte_writeRange_outside]
    · exact hw .ybuf _ (by simp [ramWriteSet, ht])
    · exact hw .ibuf _ (by simp [ramWriteSet, ht])
    · exact hw .qbuf _ (by simp [ramWriteSet, ht])
  cases i
  case filter => exact readByte_writeRange_outside _ _ _ _ (ws .wavg _ (by simp [ramWriteSet]))
  case sync => show readByte (syncEffect s).mem a = _; rw [syncEffect_mem]
  case demod => exact demod s rfl ws
  case color => exact readByte_writeRange_outside _ _ _ _ (ws .pix _ (by simp [ramWriteSet]))
  case line =>
    show readByte (lineEffect s).mem a = _
    unfold lineEffect
    split_ifs
    · rfl
    · show readByte (lineStages s).mem a = _
      rw [lineStages_mem, readByte_writeRange_outside _ _ _ _ (ws .pix _ (by simp [ramWriteSet])),
        demod _ (by rw [syncEffect_cfg]; rfl), syncEffect_mem]
      · exact readByte_writeRange_outside _ _ _ _ (ws .wavg _ (by simp [ramWriteSet]))
      · intro r n hm
        refine ws r n ?_
        simp only [ramWriteSet, List.mem_cons, List.not_mem_nil, or_false] at hm ⊢
        tauto
  all_goals rfl

/-- The registers an effect leaves alone when they are not in its write set. -/
theorem effectOf_registers (i : Instr) (s : State) :
    (writesRow i = false → (effectOf i s).row = s.row) ∧
    (writesSync i = false → (effectOf i s).offset = s.offset ∧ (effectOf i s).fallIdx = s.fallIdx ∧
      (effectOf i s).riseIdx = s.riseIdx ∧ (effectOf i s).alignMiss = s.alignMiss) ∧
    (writesRowLimit i = false → (effectOf i s).rowLimit = s.rowLimit) := by
  cases i
  case sync =>
    obtain ⟨o, f, r, b, h⟩ := syncEffect_eq s
    simp only [effectOf, h]
    simp [writesSync]
  case line => simp [writesRow, writesSync, writesRowLimit]
  case frameStart => exact ⟨fun h => by simp [writesRow] at h, fun _ => ⟨rfl, rfl, rfl, rfl⟩, fun _ => rfl⟩
  all_goals exact ⟨fun _ => rfl, fun _ => ⟨rfl, rfl, rfl, rfl⟩, fun _ => rfl⟩

end Sys2Proof.Machine
end

