-- ==== Sys2Proof/Laws/Bus.lean ====
section
/-! SUPPORT. What a host transaction can do, by the location it reaches. -/

namespace Sys2Proof.Machine

/-! ### Locations -/

theorem ramAddr_lt_aperture {r : Ram} {i : Nat} (h : i < r.words) : 0x4000 ≤ ramAddr r i ∧ ramAddr r i < 0x1C400 := by
  cases r <;> simp only [Ram.words, Config.lineMax, Config.lutSize] at h <;> simp only [ramAddr, Ram.base] <;> omega

theorem toNat_ramOffset {r : Ram} {i : Nat} (h : i < r.words) : (BitVec.ofNat 17 (ramAddr r i)).toNat = ramAddr r i := by
  have := ramAddr_lt_aperture h
  rw [BitVec.toNat_ofNat, Nat.mod_eq_of_lt (by omega)]

/-- A RAM word's offset reaches that word (20_memory R75). -/
theorem locate_ram {r : Ram} {i : Nat} (h : i < r.words) : locate (BitVec.ofNat 17 (ramAddr r i)) = .ram r i := by
  have ha := ramAddr_lt_aperture h
  rw [locate, toNat_ramOffset h, if_neg (by omega), ramAt]
  cases r <;> simp only [Ram.words, Config.lineMax, Config.lutSize] at h <;>
    simp only [ramAddr, Ram.base, Nat.shiftRight_eq_div_pow] <;> split_ifs <;>
    first | omega | (congr 1; omega)

/-- A register's offset reaches that register, and is a multiple of 4 (20_memory R73). -/
theorem locate_offsetOf {l : Loc} {a : Nat} (h : offsetOf l = some a) (hr : ∀ r i, l = .ram r i → i < r.words) :
    locate (BitVec.ofNat 17 a) = l ∧ (BitVec.ofNat 17 a).toNat = a ∧ a % 4 = 0 := by
  cases l
  case ram r i =>
    have hi := hr r i rfl
    obtain rfl : ramAddr r i = a := by simpa [offsetOf] using h
    refine ⟨locate_ram hi, toNat_ramOffset hi, ?_⟩
    cases r <;> simp only [ramAddr, Ram.base] <;> omega
  case reserved => simp [offsetOf] at h
  case cfg r => cases r <;> (obtain rfl := Option.some.inj h; decide)
  all_goals (obtain rfl := Option.some.inj h; decide)

/-- Reserved offsets reach no location (20_memory R73, R74). -/
theorem locate_reserved {off : BitVec 17}
    (h : 0x28 ≤ off.toNat ∧ off.toNat ≤ 0x3C ∨ 0x84 ≤ off.toNat ∧ off.toNat ≤ 0x3FFC ∨ 0x1C400 ≤ off.toNat) :
    locate off = .reserved := by
  have hlt := off.isLt
  unfold locate
  split_ifs with hs
  · have hn : registerMap.find? (fun e => e.1 == off.toNat) = none := by
      simp only [registerMap, List.find?_eq_none, List.mem_cons, List.not_mem_nil, or_false, beq_iff_eq]
      rintro e he hk
      rcases he with he | he | he | he | he | he | he | he | he | he | he | he | he | he | he | he | he | he | he |
        he | he | he | he | he | he | he | he <;> subst he <;> simp only at hk <;> omega
    rw [hn]; rfl
  · unfold ramAt
    split_ifs <;> first | omega | rfl

/-! ### Transactions -/

theorem hostTurn_read {off : BitVec 17} (h : off.toNat % 4 = 0) (s : State) :
    hostTurn (busRead off) s = locRead (locate off) s := by
  simp [hostTurn, busRead, validAccess, h]

theorem hostTurn_write {off : BitVec 17} (h : off.toNat % 4 = 0) (w : Word) (s : State) :
    hostTurn (busWrite off w) s = locWrite (locate off) w s := by
  simp [hostTurn, busWrite, validAccess, h]

theorem hostTurn_invalid_read {off : BitVec 17} {size : AccessSize} (h : size ≠ .word ∨ off.toNat % 4 ≠ 0) (s : State) :
    hostTurn (.read off size) s = (raiseErr .access s).withRdata 0#32 := by
  have : validAccess off size = false := by simp [validAccess]; tauto
  simp [hostTurn, this]

theorem hostTurn_invalid_write {off : BitVec 17} {size : AccessSize} (h : size ≠ .word ∨ off.toNat % 4 ≠ 0) (w : Word)
    (s : State) : hostTurn (.write off size w) s = raiseErr .access s := by
  have : validAccess off size = false := by simp [validAccess]; tauto
  simp [hostTurn, this]

/-- All a read can do: change the word returned and the count of draws. -/
theorem locRead_eq (l : Loc) (s : State) :
    locRead l s = { s with rdata := readValue l s, draws := if readsDraw l s then s.draws + 1 else s.draws } := rfl

/-- A read while idle returns the value held and takes no draw. -/
theorem locRead_idle {s : State} (l : Loc) (h : s.busy = false) : locRead l s = { s with rdata := regRead l s } := by
  have hn : inFlight s = none := by simp [inFlight, h]
  simp only [locRead_eq, readsDraw, readValue, hn, Bool.false_eq_true, if_false]

/-- A read with a command pending, but of `STATUS`: a draw inside its write set, the value held outside
(70_reset_and_hazards R301). -/
theorem locRead_pending {s : State} {i : Instr} (l : Loc) (hb : s.busy = true) (hp : s.pending = some i)
    (hl : l ≠ .status) : locRead l s = if locInWriteSet i s.cfg l then
      { s with rdata := Config.freeWord s.draws, draws := s.draws + 1 } else { s with rdata := regRead l s } := by
  have hn : inFlight s = some i := by simp only [inFlight, hb, hp, if_true]
  have hs : (l == Loc.status) = false := by simpa using hl
  simp only [locRead_eq, readsDraw, readValue, hn, hs, Bool.false_and, Bool.or_false, Bool.false_eq_true, if_false]
  cases locInWriteSet i s.cfg l <;> simp

/-- A read of a location that no command writes returns the value held, busy or not. -/
theorem locRead_exact {s : State} (l : Loc) (hw : ∀ i, locInWriteSet i s.cfg l = false) (hl : l ≠ .status) :
    locRead l s = { s with rdata := regRead l s } := by
  have hs : (l == Loc.status) = false := by simpa using hl
  have hd : readsDraw l s = false := by unfold readsDraw; split <;> simp [hw, hs]
  have hv : readValue l s = regRead l s := by unfold readValue; split <;> simp [hw, hs]
  simp only [locRead_eq, hd, hv, Bool.false_eq_true, if_false]

theorem unlessBusy_idle {s : State} (t : State) (h : s.busy = false) : unlessBusy s t = t := by
  simp only [unlessBusy, h, Bool.false_eq_true, if_false]

theorem unlessBusy_busy {s : State} (t : State) (h : s.busy = true) : unlessBusy s t = raiseErr .busy s := by
  simp only [unlessBusy, h, if_true]

/-- All a `CMD` write can do (40_command_engine R130). -/
theorem cmdWrite_cases (w : Word) (s : State) :
    (s.busy = true ∧ cmdWrite w s = raiseErr .busy s) ∨
    (s.busy = false ∧ (∀ i, decodeWord w ≠ .ok i) ∧ cmdWrite w s = raiseErr .illegalCmd s) ∨
    (∃ i, s.busy = false ∧ decodeWord w = .ok i ∧ legal i s = false ∧ cmdWrite w s = raiseErr .config s) ∨
    (∃ i, s.busy = false ∧ decodeWord w = .ok i ∧ legal i s = true ∧ cmdWrite w s = accept i s) := by
  unfold cmdWrite
  cases hb : s.busy
  · cases hd : decodeWord w with
    | error e => right; left; simp
    | ok i => cases hl : legal i s <;> simp [hl]
  · left; simp

/-- All a location write can do: nothing, raise an error, clear status bits, soft reset, accept a command, or, while
idle, store into a register or a RAM word. -/
theorem locWrite_cases (l : Loc) (w : Word) (s : State) :
    locWrite l w s = s ∨ (∃ c, c ≠ .none ∧ locWrite l w s = raiseErr c s) ∨
    (l = .status ∧ locWrite l w s = clearStatus w s) ∨
    (l = .ctrl ∧ w.getLsbD 0 = true ∧ locWrite l w s = softReset s) ∨
    (∃ i, s.busy = false ∧ legal i s = true ∧ locWrite l w s = accept i s) ∨
    (s.busy = false ∧
      ((∃ a b, locWrite l w s = s.withModes a b) ∨ (∃ a b, l = .irqEn ∧ locWrite l w s = s.withEnables a b) ∨
        (∃ o, locWrite l w s = s.withOffset o) ∨ (∃ c, locWrite l w s = s.withCfg c) ∨
        (∃ r i, locWrite l w s = s.withMem (writeRam s.mem r i w)))) := by
  have ub : ∀ t : State, unlessBusy s t = raiseErr .busy s ∨ (s.busy = false ∧ unlessBusy s t = t) := fun t => by
    unfold unlessBusy; cases s.busy <;> simp
  cases l
  case status => exact .inr (.inr (.inl ⟨rfl, rfl⟩))
  case ctrl =>
    cases hw : w.getLsbD 0
    · rcases ub (s.withModes (w.getLsbD 1) (w.getLsbD 2)) with h | ⟨hb, h⟩
      · exact .inr (.inl ⟨.busy, by simp, by simp only [locWrite, hw]; exact h⟩)
      · exact .inr (.inr (.inr (.inr (.inr ⟨hb, .inl ⟨_, _, by simp only [locWrite, hw]; exact h⟩⟩))))
    · exact .inr (.inr (.inr (.inl ⟨rfl, rfl, by simp only [locWrite, hw]; rfl⟩)))
  case irqEn =>
    rcases ub (s.withEnables (w.getLsbD 0) (w.getLsbD 1)) with h | ⟨hb, h⟩
    · exact .inr (.inl ⟨.busy, by simp, h⟩)
    · exact .inr (.inr (.inr (.inr (.inr ⟨hb, .inr (.inl ⟨_, _, rfl, h⟩)⟩))))
  case cmd =>
    rcases cmdWrite_cases w s with ⟨-, h⟩ | ⟨-, -, h⟩ | ⟨i, -, -, -, h⟩ | ⟨i, hb, -, hl, h⟩
    · exact .inr (.inl ⟨.busy, by simp, h⟩)
    · exact .inr (.inl ⟨.illegalCmd, by simp, h⟩)
    · exact .inr (.inl ⟨.config, by simp, h⟩)
    · exact .inr (.inr (.inr (.inr (.inl ⟨i, hb, hl, h⟩))))
  case offset =>
    rcases ub (s.withOffset (w.setWidth 16)) with h | ⟨hb, h⟩
    · exact .inr (.inl ⟨.busy, by simp, h⟩)
    · exact .inr (.inr (.inr (.inr (.inr ⟨hb, .inr (.inr (.inl ⟨_, h⟩))⟩))))
  case cfg r =>
    rcases ub (s.withCfg (cfgWrite r w s.cfg)) with h | ⟨hb, h⟩
    · exact .inr (.inl ⟨.busy, by simp, h⟩)
    · exact .inr (.inr (.inr (.inr (.inr ⟨hb, .inr (.inr (.inr (.inl ⟨_, h⟩)))⟩))))
  case ram r i =>
    rcases ub (s.withMem (writeRam s.mem r i w)) with h | ⟨hb, h⟩
    · exact .inr (.inl ⟨.busy, by simp, h⟩)
    · exact .inr (.inr (.inr (.inr (.inr ⟨hb, .inr (.inr (.inr (.inr ⟨_, _, h⟩)))⟩))))
  all_goals exact .inl rfl

/-- All a host transaction can do, in the terms of `locWrite_cases`. -/
theorem hostTurn_cases (t : Transaction) (s : State) :
    (∃ off size, t = .read off size ∧ (∃ l, hostTurn t s = locRead l s)) ∨
    (∃ off size, t = .read off size ∧ hostTurn t s = (raiseErr .access s).withRdata 0#32) ∨
    (∃ off size w, t = .write off size w ∧ hostTurn t s = raiseErr .access s) ∨
    (∃ off w, t = busWrite off w ∧ off.toNat % 4 = 0 ∧ hostTurn t s = locWrite (locate off) w s) := by
  cases t with
  | read off size =>
    by_cases h : size = .word ∧ off.toNat % 4 = 0
    · obtain ⟨rfl, h⟩ := h
      exact .inl ⟨off, _, rfl, _, hostTurn_read h s⟩
    · exact .inr (.inl ⟨off, size, rfl, hostTurn_invalid_read (by tauto) s⟩)
  | write off size w =>
    by_cases h : size = .word ∧ off.toNat % 4 = 0
    · obtain ⟨rfl, h⟩ := h
      exact .inr (.inr (.inr ⟨off, w, rfl, h, hostTurn_write h w s⟩))
    · exact .inr (.inr (.inl ⟨off, size, w, rfl, hostTurn_invalid_write (by tauto) w s⟩))

/-! ### Soft reset -/

theorem scramble_wf {m : Memory} (h : m.wf) (n : Nat) (l : List (Ram × Nat)) : (scramble m n l).wf := by
  induction l generalizing m n with
  | nil => exact h
  | cons p rest ih => obtain ⟨r, k⟩ := p; exact ih (writeRam_wf h _ _ _) _

/-- An abort changes no byte outside the RAM words it scrambles (70_reset_and_hazards R292). -/
theorem readByte_scramble_outside (m : Memory) (n : Nat) (l : List (Ram × Nat)) {a : Nat}
    (h : ∀ p ∈ l, a < ramAddr p.1 p.2 ∨ ramAddr p.1 p.2 + 4 ≤ a) : readByte (scramble m n l) a = readByte m a := by
  induction l generalizing m n with
  | nil => rfl
  | cons p rest ih =>
    obtain ⟨r, k⟩ := p
    rw [scramble, ih _ _ fun p hp => h p (List.mem_cons_of_mem _ hp)]
    exact readByte_writeRam_outside m r k _ (h (r, k) List.mem_cons_self)

/-- An abort leaves a RAM word it does not scramble. -/
theorem readRam_scramble_outside (m : Memory) (n : Nat) (l : List (Ram × Nat)) {r : Ram} {k : Nat} (h : (r, k) ∉ l) :
    readRam (scramble m n l) r k = readRam m r k := by
  induction l generalizing m n with
  | nil => rfl
  | cons p rest ih =>
    obtain ⟨r', k'⟩ := p
    simp only [List.mem_cons, not_or] at h
    rw [scramble, ih _ _ h.2, readRam_writeRam, if_neg]
    rintro ⟨rfl, rfl, -⟩
    exact h.1 rfl

/-- The word at position `j` of an abort takes the draw `n + j` (70_reset_and_hazards R292). -/
theorem readRam_scramble (m : Memory) (n : Nat) (l : List (Ram × Nat)) (hd : l.Nodup) {j : Nat} {r : Ram} {k : Nat}
    (hj : l[j]? = some (r, k)) (hk : k < r.words) :
    readRam (scramble m n l) r k = keptBits r (Config.freeWord (n + j)) := by
  induction l generalizing m n j with
  | nil => simp at hj
  | cons p rest ih =>
    obtain ⟨r', k'⟩ := p
    rw [List.nodup_cons] at hd
    rw [scramble]
    cases j with
    | zero =>
      obtain ⟨rfl, rfl⟩ : r' = r ∧ k' = k := by simpa using hj
      rw [readRam_scramble_outside _ _ _ hd.1, readRam_writeRam, if_pos ⟨rfl, rfl, hk⟩, Nat.add_zero]
    | succ j =>
      rw [ih _ _ hd.2 (by simpa using hj)]
      congr 2
      omega

theorem mem_ramWords {l : List (Ram × Nat)} {r : Ram} {k : Nat} : (r, k) ∈ ramWords l ↔ ∃ n, (r, n) ∈ l ∧ k < n := by
  simp only [ramWords, List.mem_flatMap, List.mem_map, List.mem_range, Prod.mk.injEq, Prod.exists]
  constructor
  · rintro ⟨r', n, hm, k', hk, rfl, rfl⟩; exact ⟨n, hm, hk⟩
  · rintro ⟨n, hm, hk⟩; exact ⟨r, n, hm, k, hk, rfl, rfl⟩

/-- The words of a write set one by one are those in the write set (40_command_engine R135). -/
theorem mem_ramWords_writeSet {i : Instr} {c : ConfigRegs} {r : Ram} {k : Nat} :
    (r, k) ∈ ramWords (ramWriteSet i c) ↔ inRamWriteSet i c r k = true := by
  rw [mem_ramWords]
  simp only [inRamWriteSet, List.any_eq_true, Bool.and_eq_true, beq_iff_eq, decide_eq_true_eq, Prod.exists]
  constructor
  · rintro ⟨n, hm, hk⟩; exact ⟨r, n, hm, rfl, hk⟩
  · rintro ⟨r', n, hm, rfl, hk⟩; exact ⟨n, hm, hk⟩

/-- A write set names every RAM word once. -/
theorem nodup_writeSet (i : Instr) (c : ConfigRegs) : (ramWords (ramWriteSet i c)).Nodup := by
  have h : ∀ l : List (Ram × Nat), (l.map (·.1)).Nodup → (ramWords l).Nodup := by
    intro l hl
    refine List.nodup_flatMap.2 ⟨fun p _ => ?_, ?_⟩
    · exact List.nodup_range.map fun a b hab => by simpa using hab
    · refine (List.pairwise_map.1 hl).imp fun {p p'} hne => ?_
      intro x hx hx'
      simp only [List.mem_map] at hx hx'
      obtain ⟨_, _, rfl⟩ := hx
      obtain ⟨_, _, he⟩ := hx'
      exact hne (Prod.mk.inj he).1.symm
  apply h
  cases i <;> simp [ramWriteSet]

end Sys2Proof.Machine
end

