-- ==== Sys2Proof/Laws/Numbers.lean ====
section
/-! SUPPORT. The arithmetic of the operands: what the guarded operations are where they are defined, the one rounding,
and the bounds of clamps, means and extremes. -/

namespace Sys2Proof.Machine

theorem divQ_of_ne {a b : ℚ} (h : b ≠ 0) : divQ a b = a / b := by simp [divQ, h]

theorem countOf_of_pos {a b : Nat} (h : 1 ≤ b) : countOf a b = a / b := by
  simp only [countOf]; rw [if_neg (by omega)]

theorem remOf_of_pos {a b : Nat} (h : 1 ≤ b) : remOf a b = a % b := by
  simp only [remOf]; rw [if_neg (by omega)]

theorem q_zero : q 0#32 = 0 := by simp [q]

theorem q_ne_zero {w : Word} (h : s32 w ≠ 0) : q w ≠ 0 := by
  unfold q
  exact div_ne_zero (Int.cast_ne_zero.2 h) (by norm_num)

theorem q_pos {w : Word} (h : 0 < s32 w) : 0 < q w := by
  unfold q
  exact div_pos (Int.cast_pos.2 h) (by norm_num)

theorem q_lt {v w : Word} (h : s32 v < s32 w) : q v < q w := by
  unfold q
  exact div_lt_div_of_pos_right (Int.cast_lt.2 h) (by norm_num)

theorem sat32_bounds (n : Int) : -2147483648 ≤ sat32 n ∧ sat32 n ≤ 2147483647 := by
  unfold sat32 clampZ; omega

theorem sat32_of_mem {n : Int} (h1 : -2147483648 ≤ n) (h2 : n ≤ 2147483647) : sat32 n = n := by
  unfold sat32 clampZ; omega

theorem toInt_word32 {n : Int} (h1 : -2147483648 ≤ n) (h2 : n ≤ 2147483647) : (word32 n).toInt = n := by
  rw [word32, BitVec.toInt_ofInt, Int.bmod_def]
  omega

/-- The signed reading of a stored value: its floor in 2^-16 units, saturated (00_scope R11). -/
theorem toInt_fx (x : ℚ) : (fx x).toInt = sat32 ⌊x * 65536⌋ :=
  toInt_word32 (sat32_bounds _).1 (sat32_bounds _).2

/-- A stored value within the range of Q15.16 is its floor in 2^-16 units. -/
theorem toInt_fx_of_mem {x : ℚ} (h1 : -32768 ≤ x) (h2 : x < 32768) : (fx x).toInt = ⌊x * 65536⌋ := by
  rw [toInt_fx, sat32_of_mem]
  · exact Int.le_floor.2 (by push_cast; linarith)
  · have : ⌊x * 65536⌋ < 2147483648 := Int.floor_lt.2 (by push_cast; linarith)
    omega

theorem fx_zero : fx 0 = 0#32 := by
  rw [fx, zero_mul, Int.floor_zero, sat32_of_mem (by norm_num) (by norm_num)]; rfl

theorem clampQ_mem {x lo hi : ℚ} (h : lo ≤ hi) : lo ≤ clampQ x lo hi ∧ clampQ x lo hi ≤ hi :=
  ⟨le_min (le_max_right _ _) h, min_le_right _ _⟩

theorem mean_of_ne_nil {xs : List ℚ} (h : xs ≠ []) : mean xs = xs.sum / xs.length := by
  refine divQ_of_ne ?_
  simpa using h

theorem maxOf_isGreatest {xs : List ℚ} (h : xs ≠ []) : IsGreatest {x | x ∈ xs} (maxOf xs) := by
  have hs : xs.max? ≠ none := by simpa using h
  obtain ⟨m, hm⟩ := Option.ne_none_iff_exists'.1 hs
  rw [maxOf, hm, Option.getD_some]
  rw [List.max?_eq_some_iff] at hm
  exact ⟨hm.1, fun b hb => hm.2 b hb⟩

theorem minOf_isLeast {xs : List ℚ} (h : xs ≠ []) : IsLeast {x | x ∈ xs} (minOf xs) := by
  have hs : xs.min? ≠ none := by simpa using h
  obtain ⟨m, hm⟩ := Option.ne_none_iff_exists'.1 hs
  rw [minOf, hm, Option.getD_some]
  rw [List.min?_eq_some_iff] at hm
  exact ⟨hm.1, fun b hb => hm.2 b hb⟩

/-- A gate lies in [0, 1] for a positive ceiling (42_demodulator R166). -/
theorem gate_mem {xs : List ℚ} {c : ℚ} (h : xs ≠ []) (hc : 0 < c) : 0 ≤ gate xs c ∧ gate xs c ≤ 1 := by
  have hle : minOf xs ≤ maxOf xs := (minOf_isLeast h).2 (maxOf_isGreatest h).1
  rw [gate, divQ_of_ne hc.ne']
  exact ⟨le_min (div_nonneg (by linarith) hc.le) zero_le_one, min_le_right _ _⟩

/-- The normalised luma lies in [0, 1] (42_demodulator R167). -/
theorem normLuma_mem (y : ℚ) {lo hi : ℚ} (h : lo < hi) : 0 ≤ normLuma y lo hi ∧ normLuma y lo hi ≤ 1 := by
  have hm := clampQ_mem (x := y) h.le
  have hd : 0 < hi - lo := by linarith
  rw [normLuma, divQ_of_ne hd.ne']
  exact ⟨div_nonneg (by linarith) hd.le, (div_le_one hd).2 (by linarith)⟩

/-- The gated chroma lies in [-1, 1] (42_demodulator R167). -/
theorem normChroma_mem (x : ℚ) {l g : ℚ} (hl : 0 < l) (h0 : 0 ≤ g) (h1 : g ≤ 1) :
    -1 ≤ normChroma x l g ∧ normChroma x l g ≤ 1 := by
  have hm := clampQ_mem (x := x) (lo := -l) (hi := l) (by linarith)
  have ha : -1 ≤ clampQ x (-l) l / l := by rw [le_div_iff₀ hl]; linarith
  have hb : clampQ x (-l) l / l ≤ 1 := (div_le_one hl).2 hm.2
  rw [normChroma, divQ_of_ne hl.ne']
  constructor <;> nlinarith

/-- A phase index is an index of the table (42_demodulator R162). -/
theorem phaseIndex_lt (c : ConfigRegs) (p : Nat) : phaseIndex c p < 256 := by
  unfold phaseIndex; omega

theorem clampZ_mem (x : Int) {lo hi : Int} (h : lo ≤ hi) : lo ≤ clampZ x lo hi ∧ clampZ x lo hi ≤ hi := by
  unfold clampZ; omega

/-- A channel ends in 0 to 255 (43_color R192, R194). -/
theorem channel_mem (y i qq : ℚ) (ab : Int × Int) : 0 ≤ channel y i qq ab ∧ channel y i qq ab ≤ 255 :=
  clampZ_mem _ (by norm_num)

/-! ### The legality predicates as propositions (40_command_engine R134) -/

theorem lLine_iff {c : ConfigRegs} : lLine c = true ↔ 1 ≤ c.lineLen.toNat ∧ c.lineLen.toNat ≤ 4096 := by
  simp only [lLine, Bool.and_eq_true, decide_eq_true_eq]; rfl

theorem lWin_iff {c : ConfigRegs} : lWin c = true ↔ 1 ≤ c.winLen.toNat ∧ c.winLen.toNat ≤ 256 := by
  simp only [lWin, Bool.and_eq_true, decide_eq_true_eq]; rfl

theorem lChunk_iff {c : ConfigRegs} : lChunk c = true ↔ 1 ≤ c.chunkW.toNat ∧ c.chunkW.toNat ≤ 256 := by
  simp only [lChunk, Bool.and_eq_true, decide_eq_true_eq]; rfl

theorem lScale_iff {c : ConfigRegs} : lScale c = true ↔ s32 c.scale ≠ 0 := by simp [lScale]

theorem lAmp_iff {c : ConfigRegs} : lAmp c = true ↔ 0 < s32 c.ampCeilI ∧ 0 < s32 c.ampCeilQ := by
  simp only [lAmp, Bool.and_eq_true, decide_eq_true_eq]

theorem lY_iff {c : ConfigRegs} : lY c = true ↔ s32 c.yLo < s32 c.yHi := by simp [lY]

theorem lIq_iff {c : ConfigRegs} : lIq c = true ↔ 0 < s32 c.iqLim := by simp [lIq]

theorem lOff_iff {s : State} : lOff s = true ↔ s.offset.toNat < s.cfg.lineLen.toNat := by simp [lOff]

theorem nwin_of_legal {c : ConfigRegs} (h : lWin c = true) : nwin c = c.lineLen.toNat / c.winLen.toNat := by
  simp only [lWin, Bool.and_eq_true, decide_eq_true_eq] at h
  exact countOf_of_pos h.1

theorem npix_of_legal {c : ConfigRegs} (h : lChunk c = true) : npix c = c.lineLen.toNat / c.chunkW.toNat := by
  simp only [lChunk, Bool.and_eq_true, decide_eq_true_eq] at h
  exact countOf_of_pos h.1

/-- A legal line and window give at most as many windows as `WAVG` has words. -/
theorem nwin_le {c : ConfigRegs} (hl : lLine c = true) (hw : lWin c = true) : nwin c ≤ Config.lineMax := by
  rw [nwin_of_legal hw]
  simp only [lLine, Bool.and_eq_true, decide_eq_true_eq] at hl
  exact (Nat.div_le_self _ _).trans hl.2

/-- A legal line and chunk give at most as many pixels as the pixel RAMs have words. -/
theorem npix_le {c : ConfigRegs} (hl : lLine c = true) (hw : lChunk c = true) : npix c ≤ Config.lineMax := by
  rw [npix_of_legal hw]
  simp only [lLine, Bool.and_eq_true, decide_eq_true_eq] at hl
  exact (Nat.div_le_self _ _).trans hl.2

end Sys2Proof.Machine
end

