-- ==== Sys2Proof/Laws/PerInstr.lean ====
section
/-! SUPPORT. What holds of every command as syntax, one lemma per constructor. -/

namespace Sys2Proof.Laws.Encoding

/-- The command's word is well formed and decodes to the command, by the word and by the table's numbering. -/
def Statement (i : Instr) : Prop :=
  i.wf = true ∧ wordWellFormed (encode i) = true ∧ decodeWord (encode i) = .ok i ∧
    decodeTableWord 32 (encode i).toNat = some i

theorem nop : Statement .nop := ⟨rfl, rfl, rfl, rfl⟩
theorem frameStart : Statement .frameStart := ⟨rfl, rfl, rfl, rfl⟩
theorem filter : Statement .filter := ⟨rfl, rfl, rfl, rfl⟩
theorem sync : Statement .sync := ⟨rfl, rfl, rfl, rfl⟩
theorem demod : Statement .demod := ⟨rfl, rfl, rfl, rfl⟩
theorem color : Statement .color := ⟨rfl, rfl, rfl, rfl⟩
theorem line : Statement .line := ⟨rfl, rfl, rfl, rfl⟩

end Sys2Proof.Laws.Encoding
end

