-- ==== Sys2Proof/Laws/Step.lean ====
section
/-! SUPPORT. What a step can do, and how a run takes its turns. -/

namespace Sys2Proof.Machine

/-- The state a turn acts on differs from the state before it at most in its agenda. -/
theorem nextTurn_state (s : State) : ∃ l, (nextTurn s).2 = s.withAgenda l := by
  unfold nextTurn
  split
  · exact ⟨s.agenda, rfl⟩
  · exact ⟨_, rfl⟩

/-- All a step that answers a state can do: a host transaction, the completion of the pending command, or nothing. -/
theorem step_cases {s t : State} (h : step s = .next t) :
    (∃ tr rest, s.agenda = .host tr :: rest ∧ t = hostTurn tr (s.withAgenda rest)) ∨
    (∃ i l, s.busy = true ∧ s.pending = some i ∧ t = complete (effectOf i (s.withAgenda l))) ∨
    (∃ l, s.busy = false ∧ t = s.withAgenda l) := by
  have engine : ∀ l, engineTurn (s.withAgenda l) = .next t →
      (∃ i l, s.busy = true ∧ s.pending = some i ∧ t = complete (effectOf i (s.withAgenda l))) ∨
      (∃ l, s.busy = false ∧ t = s.withAgenda l) := by
    intro l he
    simp only [engineTurn, State.withAgenda_busy, State.withAgenda_pending] at he
    cases hb : s.busy
    · simp only [hb] at he
      exact .inr ⟨l, rfl, (Host.Outcome.next.inj he).symm⟩
    · cases hp : s.pending with
      | none => simp [hb, hp] at he
      | some i =>
        simp only [hb, hp, if_true, exec_eq] at he
        exact .inl ⟨i, l, rfl, rfl, (Host.Outcome.next.inj he).symm⟩
  unfold step nextTurn at h
  cases ha : s.agenda with
  | nil => rw [ha] at h; exact .inr (engine s.agenda h)
  | cons tu rest =>
    rw [ha] at h
    cases tu with
    | host tr => exact .inl ⟨tr, rest, rfl, (Host.Outcome.next.inj h).symm⟩
    | engine => exact .inr (engine rest h)

theorem step_host {s : State} {tr : Transaction} {rest : List Turn} (h : s.agenda = .host tr :: rest) :
    step s = .next (hostTurn tr (s.withAgenda rest)) := by
  simp [step, nextTurn, h]

theorem step_engine {s : State} {rest : List Turn} (h : s.agenda = .engine :: rest) :
    step s = engineTurn (s.withAgenda rest) := by
  simp [step, nextTurn, h]

theorem step_nil {s : State} (h : s.agenda = []) : step s = engineTurn s := by
  simp [step, nextTurn, h]

theorem engineTurn_pending {s : State} {i : Instr} (hb : s.busy = true) (hp : s.pending = some i) :
    engineTurn s = exec i s := by
  simp [engineTurn, hb, hp]

theorem engineTurn_idle {s : State} (hb : s.busy = false) : engineTurn s = .next s := by
  simp [engineTurn, hb]

/-- No host transaction touches the agenda. -/
theorem hostTurn_agenda (t : Transaction) (s : State) : (hostTurn t s).agenda = s.agenda := by
  rcases hostTurn_cases t s with ⟨_, _, -, l, h⟩ | ⟨_, _, -, h⟩ | ⟨_, _, _, -, h⟩ | ⟨off, w, -, -, h⟩ <;> rw [h]
  · rfl
  · rfl
  · rfl
  · rcases locWrite_cases (locate off) w s with h | ⟨c, -, h⟩ | ⟨-, h⟩ | ⟨-, -, h⟩ | ⟨i, -, -, h⟩ |
      ⟨-, ⟨a, b, h⟩ | ⟨a, b, -, h⟩ | ⟨o, h⟩ | ⟨c, h⟩ | ⟨r, i, h⟩⟩ <;> rw [h] <;> rfl

/-- A host transaction does the same whatever turns are still to come. -/
theorem hostTurn_withAgenda (t : Transaction) (s : State) (l : List Turn) :
    hostTurn t (s.withAgenda l) = (hostTurn t s).withAgenda l := by
  have busy : ∀ x : State, unlessBusy (s.withAgenda l) (x.withAgenda l) = (unlessBusy s x).withAgenda l := fun x => by
    unfold unlessBusy
    rw [State.withAgenda_busy]
    split_ifs <;> rfl
  have write : ∀ (loc : Loc) (w : Word), locWrite loc w (s.withAgenda l) = (locWrite loc w s).withAgenda l := by
    intro loc w
    cases loc
    case ctrl =>
      simp only [locWrite]
      split_ifs
      · rfl
      · exact busy (s.withModes (w.getLsbD 1) (w.getLsbD 2))
    case irqEn => exact busy (s.withEnables (w.getLsbD 0) (w.getLsbD 1))
    case offset => exact busy (s.withOffset (w.setWidth 16))
    case cfg r => exact busy (s.withCfg (cfgWrite r w s.cfg))
    case ram r i => exact busy (s.withMem (writeRam s.mem r i w))
    case cmd =>
      have hl : ∀ i, legal i (s.withAgenda l) = legal i s := fun i => by cases i <;> rfl
      simp only [locWrite, cmdWrite, State.withAgenda_busy, hl]
      cases s.busy <;> cases decodeWord w <;> simp only [if_true, if_false, Bool.false_eq_true] <;>
        first | rfl | (split_ifs <;> rfl)
    all_goals rfl
  cases t with
  | read off size => simp only [hostTurn]; split_ifs <;> rfl
  | write off size w =>
    simp only [hostTurn]
    split_ifs
    · exact write _ _
    · rfl

/-- A step taken first in a run. -/
theorem run_succ {s t : State} (k : Nat) (h : step s = .next t) : Sys2Proof.core.run (k + 1) s = Sys2Proof.core.run k t := by
  have h' : Sys2Proof.core.step s = .next t := h
  simp only [Host.Core.run, h']

/-- The host's turns at the head of the agenda are the host's transactions one after another. -/
theorem run_hosts (ts : List Transaction) (k : Nat) (rest : List Turn) (s : State) :
    Sys2Proof.core.run (ts.length + k) (s.withAgenda (ts.map Turn.host ++ rest)) =
      Sys2Proof.core.run k ((afterHost ts s).withAgenda rest) := by
  induction ts generalizing s with
  | nil => simp [afterHost]
  | cons t ts ih =>
    have h : step (s.withAgenda ((t :: ts).map Turn.host ++ rest)) =
        .next ((hostTurn t s).withAgenda (ts.map Turn.host ++ rest)) := by
      rw [step_host rfl, ← hostTurn_withAgenda]
      rfl
    rw [List.length_cons, Nat.add_right_comm, run_succ _ h, ih]
    rfl

end Sys2Proof.Machine
end

