-- ==== Sys2Proof/Tests/Slice0.lean ====
section
/-! SUPPORT. Tests on fixed values. Expected results come from spec/95_test_vectors.md (V-.., P..), from the examples of the
rules, or from the tables; each theorem names its source. The `witness_` theorems show, for each statement of Obligations.lean
that has hypotheses, concrete states and operands that meet them. -/

namespace Sys2Proof.Tests

-- One theorem after another: each kernel evaluation that waits on a thread of its own reserves a stack.
set_option Elab.async false

open Sys2Proof.Machine

/-! ### Helpers -/

/-- The configuration S of 95_test_vectors section 0. -/
def stdCfg (len ceil : Nat) : ConfigRegs where
  baseline := 0x800#32
  rawShift := 4#4
  scale := 0x10000#32
  winLen := 4#9
  tFall := 0xFFD80000#32
  tRise := 0xFFFB0000#32
  lineLen := BitVec.ofNat 13 len
  rowCeil := BitVec.ofNat 16 ceil
  chunkW := 4#9
  carrierInc := 0x40000000#32
  phaseShift := 0#32
  gain := 0x20000#32
  ampCeilI := 0x280000#32
  ampCeilQ := 0x280000#32
  yLo := 0#32
  yHi := 0x640000#32
  iqLim := 0x320000#32

/-- The first words of a RAM written over a state. -/
def fill (r : Ram) (ws : List Nat) (s : State) : State :=
  s.withMem (writeRange s.mem r (fun i => BitVec.ofNat 32 (ws.getD i 0)) ws.length)

/-- The state after reset with configuration S. -/
def std (len ceil : Nat) : State := State.reset.withCfg (stdCfg len ceil)

/-- The four table entries that S reads. -/
def withTable (s : State) : State :=
  s.withMem (writeRam (writeRam (writeRam (writeRam s.mem .lut 0 0#32) .lut 64 0x10000#32) .lut 128 0#32) .lut 192 0xFFFF0000#32)

/-- The outcome is a next state with this property. -/
def gives (o : Host.Outcome State Fault Refusal) (p : State → Bool) : Bool :=
  match o with
  | .next t => p t
  | _ => false

/-- S with `LINE_LEN = 4`, the table, and one chunk of raw words. -/
def line4 (raw : List Nat) : State := fill .raw raw (withTable (std 4 1))

/-- A command at the engine. -/
def pendingOn (i : Instr) (s : State) : State := accept i s

/-! ### Well-formedness and decoding (30_encoding R100 to R103; V-E8 to V-E11) -/

theorem test_wf_refuses_reserved_bit : wordWellFormed 0x00000100#32 = false := by decide
theorem test_wf_refuses_top_bit : wordWellFormed 0x80000002#32 = false := by decide
theorem test_wf_refuses_opcode_7 : wordWellFormed 0x00000007#32 = false := by decide
theorem test_wf_refuses_opcode_255 : wordWellFormed 0x000000FF#32 = false := by decide
theorem test_wf_accepts_all : [Instr.nop, .frameStart, .filter, .sync, .demod, .color, .line].all
    (fun i => i.wf && wordWellFormed (encode i)) = true := by decide
theorem test_decode_refuses_by_name : decodeWord 0x00000107#32 = .error .reservedBits ∧
    decodeWord 0x00000007#32 = .error .noSuchOpcode ∧ decodeBytes [0#8, 0#8, 0#8] = .error .tooShort :=
  ⟨rfl, rfl, rfl⟩

theorem test_decode_nop : decodeWord 0b00000000000000000000000000000000#32 = .ok .nop := rfl
theorem test_decode_frameStart : decodeWord 0b00000000000000000000000000000001#32 = .ok .frameStart := rfl
theorem test_decode_filter : decodeWord 0b00000000000000000000000000000010#32 = .ok .filter := rfl
theorem test_decode_sync : decodeWord 0b00000000000000000000000000000011#32 = .ok .sync := rfl
theorem test_decode_demod : decodeWord 0b00000000000000000000000000000100#32 = .ok .demod := rfl
theorem test_decode_color : decodeWord 0b00000000000000000000000000000101#32 = .ok .color := rfl
theorem test_decode_line : decodeWord 0b00000000000000000000000000000110#32 = .ok .line := rfl
theorem test_decode_bytes : decodeBytes [0x04#8, 0#8, 0#8, 0#8, 0xAA#8] = .ok (.demod, [0xAA#8]) := rfl
theorem test_decodeTableWord : (List.range 9).map (decodeTableWord 32) =
    [some .nop, some .frameStart, some .filter, some .sync, some .demod, some .color, some .line, none, none] := by decide

/-! ### Reset -/

theorem test_reset_memory_wf : State.reset.mem.wf := wf_nil

/-! ### One step of each command -/

/-- 40_command_engine R140, example: STATUS = 0x00000002. -/
theorem test_nop : gives (step (State.reset.withFetchWord 32 0)) (fun t => statusWord t == 2#32) = true := by decide

/-- 40_command_engine R141, example: `ROW = 3` becomes 0. -/
theorem test_frameStart : gives (step ((State.reset.withRow 3#16).withFetchWord 32 1))
    (fun t => t.row == 0#16 && statusWord t == 2#32) = true := by decide

/-- V-F2 with its configuration: a positive mean floored. -/
def filterState (len : Nat) (raw : List Nat) : State :=
  fill .raw raw (State.reset.withCfg { stdCfg len 1 with scale := 0xA0000#32, winLen := 3#9 })

/-- V-F2. -/
theorem test_filter_floors : gives (step ((filterState 7 [0x8000, 0x800F, 0x7FF0, 0, 0xFFFF, 0x8010, 0x1234]).withFetchWord 32 2))
    (fun t => readRam t.mem .wavg 0 == 0x888#32 && readRam t.mem .wavg 1 == 0#32) = true := by decide +kernel

/-- V-F3. -/
theorem test_filter_floors_down : gives (step ((filterState 3 [0x8000, 0x8000, 0x8010]).withFetchWord 32 2))
    (fun t => readRam t.mem .wavg 0 == 0xFFFFF777#32) = true := by decide +kernel

/-- The state of V-S2: two pulses. -/
def twoPulses : State := fill .wavg [0, 0xFFCE0000, 0, 0, 0xFFCE0000, 0] (std 24 1)

/-- V-S2, reverse scan. -/
theorem test_sync_reverse : gives (step (twoPulses.withFetchWord 32 3))
    (fun t => t.offset == 20#16 && syncPosWord t == 0x00050004#32 && !t.alignMiss) = true := by decide +kernel

/-- V-S2, forward scan. -/
theorem test_sync_forward : gives (step ((twoPulses.withModes false false).withFetchWord 32 3))
    (fun t => t.offset == 8#16 && syncPosWord t == 0x00020001#32 && !t.alignMiss) = true := by decide +kernel

/-- V-D8: `PHASE_SHIFT = 1.0`, a negative Q floored. -/
theorem test_demod_negative : gives (step (((line4 [0x7E20, 0x7CE0, 0x7E20, 0x7F60]).withCfg
      { stdCfg 4 1 with phaseShift := 0x10000#32 }).withFetchWord 32 4))
    (fun t => readRam t.mem .ybuf 0 == 0x4CCC#32 && readRam t.mem .ibuf 0 == 0#32
      && readRam t.mem .qbuf 0 == 0xFFFF9999#32) = true := by decide +kernel

/-- V-D9: a gate of a quarter. -/
theorem test_demod_gate : gives (step ((line4 [0x8000, 0x7FB0, 0x8000, 0x8050]).withFetchWord 32 4))
    (fun t => readRam t.mem .ybuf 0 == 0#32 && readRam t.mem .ibuf 0 == 0x666#32
      && readRam t.mem .qbuf 0 == 0#32) = true := by decide +kernel

/-- S with one pixel per line and the words given. -/
def pixelState (y i qq : Nat) : State :=
  fill .qbuf [qq] (fill .ibuf [i] (fill .ybuf [y] (State.reset.withCfg { stdCfg 1 1 with chunkW := 1#9 })))

/-- V-C4. -/
theorem test_color_clamps : gives (step ((pixelState 0x8000 0x4000 0).withFetchWord 32 5))
    (fun t => readRam t.mem .pix 0 == 0xFFFF6E38#32) = true := by decide +kernel

/-- V-C11. -/
theorem test_color_mixed : gives (step ((pixelState 0x8000 0xFFFFC000 0x4000).withFetchWord 32 5))
    (fun t => readRam t.mem .pix 0 == 0xFF4A67FF#32) = true := by decide +kernel

/-- The state of 44_line R245. -/
def lineState : State :=
  fill .raw [0x7E20, 0x7CE0, 0x7E20, 0x7F60, 0x8320, 0x8320, 0x8320, 0x8320, 0x8000, 0x8000, 0x8000, 0x8000, 0x7CE0,
    0x7E20, 0x7F60, 0x7E20] (withTable (std 16 2))

/-- 44_line R245: the pixels, the alignment and the row. -/
theorem test_line : gives (step (lineState.withFetchWord 32 6))
    (fun t => (List.range 4).map (readRam t.mem .pix) == [0xFF000000#32, 0xFFF10AFA#32, 0xFFFF3000#32, 0xFF000000#32]
      && t.offset == 8#16 && syncPosWord t == 0x00020001#32 && t.row == 1#16 && statusWord t == 2#32) = true := by
  decide +kernel

/-- 44_line R241: at the ceiling. -/
theorem test_line_limited : gives (step ((lineState.withRow 2#16).withFetchWord 32 6))
    (fun t => statusWord t == 0x12#32 && t.row == 2#16 && t.mem == lineState.mem) = true := by decide +kernel

/-! ### The host's transactions -/

/-- V-E8, and 95_test_vectors P4 steps 7, 9, 10: the words of `STATUS`. -/
theorem test_errors :
    statusWord (hostTurn (busWrite 0x018#17 7#32) State.reset) = 0x104#32 ∧
    statusWord (hostTurn (busWrite 0x018#17 2#32) State.reset) = 0x304#32 ∧
    statusWord (hostTurn (.write 0x041#17 .byte 5#32) State.reset) = 0x404#32 ∧
    statusWord (hostTurn (busWrite 0x018#17 0#32) State.reset) = 0x001#32 ∧
    statusWord (hostTurn (busWrite 0x058#17 9#32) (accept .nop State.reset)) = 0x205#32 := by decide

/-- 10_state R36, R51: a field and a raw word keep only their stored bits. -/
theorem test_stored_bits :
    (hostTurn (busRead 0x04C#17) (hostTurn (busWrite 0x04C#17 0xFFFFFFFF#32) State.reset)).rdata = 0x1FF#32 ∧
    (hostTurn (busRead 0x4000#17) (hostTurn (busWrite 0x4000#17 0xABCD1234#32) State.reset)).rdata = 0x1234#32 := by
  decide +kernel

/-- The phase-index vectors of 95_test_vectors section 2.5 with a shift of 0.25 and of -0.5. -/
theorem test_phase_index :
    (List.range 5).map (phaseIndex { stdCfg 4 1 with phaseShift := 0x4000#32 }) = [16, 80, 144, 208, 16] ∧
    (List.range 5).map (phaseIndex { stdCfg 4 1 with phaseShift := 0xFFFF8000#32 }) = [224, 32, 96, 160, 224] := by
  decide +kernel

/-! ### Witnesses: states and operands that meet the hypotheses of the statements -/

/-- A legal FILTER at the engine, for the statements about pending commands. -/
def pendingFilter : State := accept .filter (filterState 3 [0x8000, 0x8000, 0x8010])

theorem witness_SoftResetRestoresRegistersAndScramblesAborted :
    (1#32).getLsbD 0 = true ∧ pendingFilter.busy = true ∧ pendingFilter.pending = some .filter ∧
    inRamWriteSet .filter pendingFilter.cfg .wavg 0 = true ∧ 0 < Ram.wavg.words ∧
    ¬ (0x8004 < ramAddr .wavg 0 + 4) := by decide +kernel

theorem witness_IdleSoftResetKeepsRamsAndRepeats :
    (1#32).getLsbD 0 = true ∧ (7#32).getLsbD 0 = true ∧ lineState.busy = false := by decide +kernel

theorem witness_AfterResetOnlyNopAndFrameStartAccepted :
    ∃ t s w, t = State.reset ∧ (w : Word).getLsbD 0 = true ∧ s = lineState ∧ w = 1#32 :=
  ⟨_, _, _, rfl, rfl, rfl, rfl⟩

/-- Each predicate at the ends of its range (40_command_engine R134). -/
theorem witness_LegalityTable :
    legal .filter (std 1 0) = true ∧ legal .filter (std 4096 0) = true ∧ legal .filter (std 0 0) = false ∧
    legal .filter (std 4097 0) = false ∧ legal .line (std 4096 0) = true ∧ legal .demod (std 1 0) = true ∧
    legal .demod ((std 1 0).withOffset 1#16) = false ∧
    legal .sync ((std 1 0).withCfg { stdCfg 1 0 with winLen := 256#9 }) = true ∧
    legal .sync ((std 1 0).withCfg { stdCfg 1 0 with winLen := 257#9 }) = false ∧
    legal .color ((std 1 0).withCfg { stdCfg 1 0 with chunkW := 256#9 }) = true ∧
    legal .color ((std 1 0).withCfg { stdCfg 1 0 with chunkW := 0#9 }) = false := by decide

/-- The four cases of a `CMD` write, the third and fourth at the two sides of `L_LINE`. -/
theorem witness_CommandWriteOutcome :
    pendingFilter.busy = true ∧ (std 0 0).busy = false ∧ 7 ≤ (7#32).toNat ∧ encode .line = 6#32 ∧
    legal .filter (std 0 0) = false ∧ legal .filter (std 1 0) = true := by decide +kernel

theorem witness_StepTakesTheNextTurn :
    (State.reset.withAgenda [.host (busRead 0x010#17)]).agenda = .host (busRead 0x010#17) :: [] ∧
    (pendingFilter.withAgenda [.engine]).agenda = .engine :: [] ∧ pendingFilter.busy = true ∧
    pendingFilter.pending = some .filter ∧ pendingFilter.agenda = [] ∧ State.reset.agenda = [] ∧
    State.reset.busy = false ∧ (State.reset.withAgenda [.engine]).agenda = .engine :: [] := by decide +kernel

/-- Host transactions that are no soft reset: a poll, a clear, a dropped write, a `CTRL` write without bit 0. -/
def delay : List Transaction :=
  [busRead 0x010#17, busWrite 0x010#17 0x16#32, busWrite 0x4000#17 5#32, busWrite 0x00C#17 6#32, .write 0x00C#17 .byte 1#32]

theorem witness_OperandsStableWhilePending :
    pendingFilter.busy = true ∧ ∀ t ∈ delay, isSoftReset t = false := by decide +kernel

theorem witness_ResultsIndependentOfDelay :
    pendingFilter.busy = true ∧ pendingFilter.pending = some .filter ∧ ∀ t ∈ delay, isSoftReset t = false := by
  decide +kernel

theorem witness_DoneOnlyAfterCompletion : pendingFilter.busy = true ∧ pendingFilter.done = false := by decide +kernel

theorem witness_WriteSetTable :
    inRamWriteSet .filter (stdCfg 16 1) .wavg 3 = true ∧ inRamWriteSet .filter (stdCfg 16 1) .wavg 4 = false ∧
    inRamWriteSet .line (stdCfg 16 1) .pix 3 = true ∧ inRamWriteSet .line (stdCfg 16 1) .pix 4 = false := by decide

theorem witness_EffectsCompleteAndStayInWriteSet :
    writesRow .sync = false ∧ writesSync .line = true ∧ writesSync .demod = false ∧ writesRowLimit .demod = false ∧
    inRamWriteSet .demod (stdCfg 4 1) .ybuf 0 = true ∧ inRamWriteSet .demod (stdCfg 4 1) .ybuf 1 = false := by decide

/-- The last row below the ceiling. -/
theorem witness_EffectsReadNoStatusFlag : ((lineState.withRow 1#16).row).toNat < lineState.cfg.rowCeil.toNat := by
  decide +kernel

theorem witness_FilterStoresWindowAverages :
    legal .filter lineState = true ∧ 3 < Rule.windows lineState ∧ ¬ 4 < Rule.windows lineState := by decide +kernel

/-- One window of one sample at the voltage `BASELINE - raw`. -/
def oneVolt (baseline : Word) (raw : Nat) : State :=
  fill .raw [raw] (State.reset.withCfg { stdCfg 1 1 with baseline := baseline, rawShift := 0#4, winLen := 1#9 })

/-- The range of the statement at its low end, and at the greatest whole voltage inside it. -/
theorem witness_StoredAverageComparesLikeExactAverage :
    (legal .filter (oneVolt 0#32 0x8000) = true ∧ 0 < Rule.windows (oneVolt 0#32 0x8000) ∧
      -32768 ≤ Rule.windowMean (oneVolt 0#32 0x8000) 0 ∧ Rule.windowMean (oneVolt 0#32 0x8000) 0 < 32768) ∧
    legal .filter (oneVolt 0x7FFF#32 0) = true ∧ 0 < Rule.windows (oneVolt 0x7FFF#32 0) ∧
    -32768 ≤ Rule.windowMean (oneVolt 0x7FFF#32 0) 0 ∧ Rule.windowMean (oneVolt 0x7FFF#32 0) 0 < 32768 := by decide +kernel

/-- V-S4: no fall. -/
def noFall : State := fill .wavg [0, 0, 0, 0] (std 16 1)

/-- V-S7, with windows of four samples: a fall in the last window. -/
def lateFall : State := fill .wavg [0, 0, 0xFFD70000] (std 12 1)

theorem witness_SyncWithoutPairMisses :
    (legal .sync noFall = true ∧ ∀ j < Rule.windows noFall, ¬ Rule.Fall noFall j) ∧
    legal .sync lateFall = true ∧ Rule.FallWindow lateFall 2 ∧
    ∀ j, 2 < j → j < Rule.windows lateFall → ¬ Rule.Rise lateFall j := by
  have hn : Rule.windows lateFall = 3 := by decide +kernel
  refine ⟨⟨by decide +kernel, by simp only [Rule.Fall]; decide +kernel⟩, by decide +kernel,
    ⟨by decide +kernel, by simp only [Rule.Fall]; decide +kernel, fun h => absurd h (by decide +kernel), ?_⟩, ?_⟩
  · intro _ j h1 h2; omega
  · intro j h1 h2; omega

/-- V-S2 in reverse: the fall window 4, the rise window 5, the last window of the line; and forward: 1 and 2. -/
theorem witness_SyncAlignsToTheRiseWindow :
    (legal .sync twoPulses = true ∧ Rule.FallWindow twoPulses 4 ∧ Rule.RiseWindow twoPulses 4 5) ∧
    legal .sync (twoPulses.withModes false false) = true ∧ Rule.FallWindow (twoPulses.withModes false false) 1 ∧
    Rule.RiseWindow (twoPulses.withModes false false) 1 2 := by
  have hn : Rule.windows twoPulses = 6 := by decide +kernel
  have h5 : ¬ Rule.Fall twoPulses 5 := by simp only [Rule.Fall]; decide +kernel
  refine ⟨⟨by decide +kernel, ⟨by decide +kernel, by simp only [Rule.Fall]; decide +kernel,
    fun h => absurd h (by decide +kernel), ?_⟩, by decide, by decide +kernel,
    by simp only [Rule.Rise]; decide +kernel, fun j h1 h2 => by omega⟩, by decide +kernel,
    ⟨by decide +kernel, by simp only [Rule.Fall]; decide +kernel, ?_, fun h => absurd h (by decide +kernel)⟩, by decide,
    by decide +kernel, by simp only [Rule.Rise]; decide +kernel, fun j h1 h2 => by omega⟩
  · intro _ j h1 h2
    obtain rfl : j = 5 := by omega
    exact h5
  · intro _ j h1
    obtain rfl : j = 0 := by omega
    simp only [Rule.Fall]; decide +kernel

/-- V-S2: the pulses are the windows 1 and 4. -/
theorem witness_TwoPulsesAlignToTheScannedOne :
    legal .sync twoPulses = true ∧ (4 + 1 < Rule.windows twoPulses) ∧
    (∀ j < Rule.windows twoPulses, Rule.Fall twoPulses j ↔ (1 ≤ j ∧ j ≤ 1 ∨ 4 ≤ j ∧ j ≤ 4)) ∧
    Rule.Rise twoPulses (1 + 1) ∧ Rule.Rise twoPulses (4 + 1) ∧
    twoPulses.cfg.tFall.toInt ≤ twoPulses.cfg.tRise.toInt ∧ twoPulses.scanMode = true ∧
    (twoPulses.withModes false false).scanMode = false := by
  simp only [Rule.Fall, Rule.Rise]
  decide +kernel

theorem witness_AlignedLineIsTheRotatedLine :
    lLine (lineState.withOffset 15#16).cfg = true ∧ (lineState.withOffset 15#16).offset.toNat < lineState.cfg.lineLen.toNat := by
  decide +kernel

theorem witness_SampleIndexModesAgreeOnWholeCycles :
    (std 8 1).pMode = false ∧ ((std 8 1).withModes true true).pMode = true ∧
    2 ^ 32 ∣ (std 8 1).cfg.lineLen.toNat * (std 8 1).cfg.carrierInc.toNat := by decide

theorem witness_DemodStoresYiq :
    legal .demod (lineState.withOffset 15#16) = true ∧ 3 < Rule.pixels lineState ∧ ¬ 4 < Rule.pixels lineState := by
  decide +kernel

theorem witness_DemodStoresNormalisedValues :
    legal .demod lineState = true ∧ 0 < Rule.pixels lineState := by decide +kernel

/-- V-D7: all contributions 0 and a luma at `Y_LO`; and a luma at `Y_HI` (100). -/
theorem witness_DemodCornerCases :
    (let s := line4 [0x8000, 0x8000, 0x8000, 0x8000]
     legal .demod s = true ∧ 0 < Rule.pixels s ∧
      (∀ m < s.cfg.chunkW.toNat, Rule.contribI s (0 * s.cfg.chunkW.toNat + m) = Rule.contribI s (0 * s.cfg.chunkW.toNat)) ∧
      (∀ m < s.cfg.chunkW.toNat, Rule.contribQ s (0 * s.cfg.chunkW.toNat + m) = Rule.contribQ s (0 * s.cfg.chunkW.toNat)) ∧
      Rule.meanOver (Rule.alignedVolt s) (0 * s.cfg.chunkW.toNat) s.cfg.chunkW.toNat ≤ Rule.real s.cfg.yLo) ∧
    (let s := (line4 [0x79C0, 0x79C0, 0x79C0, 0x79C0]).withCfg { stdCfg 4 1 with carrierInc := 0#32 }
     legal .demod s = true ∧ s.cfg.carrierInc = 0#32 ∧
      Rule.real s.cfg.yHi ≤ Rule.meanOver (Rule.alignedVolt s) (0 * s.cfg.chunkW.toNat) s.cfg.chunkW.toNat) := by
  decide +kernel

/-- V-D16: DC 60, sine amplitude 20, cosine amplitude 0. -/
theorem witness_QuarterCycleDemodRecoversAmplitudes :
    let s := line4 [0x7C40, 0x7B00, 0x7C40, 0x7D80]
    0 < s.cfg.chunkW.toNat ∧ 4 ∣ s.cfg.chunkW.toNat ∧ s.pMode = false ∧
    s.cfg.carrierInc = 0x40000000#32 ∧ s.cfg.phaseShift = 0#32 ∧ s.cfg.gain = 0x20000#32 ∧
    readRam s.mem .lut 0 = 0#32 ∧ readRam s.mem .lut 64 = 0x10000#32 ∧ readRam s.mem .lut 128 = 0#32 ∧
    readRam s.mem .lut 192 = 0xFFFF0000#32 ∧
    ∀ m < s.cfg.chunkW.toNat, sampleVolt s (0 * s.cfg.chunkW.toNat + m) =
      60 + 20 * ![0, 1, 0, -1] (Fin.ofNat 4 m) + 0 * ![1, 0, -1, 0] (Fin.ofNat 4 m) := by decide +kernel

theorem witness_ColorStoresPixels :
    legal .color (pixelState 0x8000 0x4000 0) = true ∧ 0 < Rule.pixels (pixelState 0x8000 0x4000 0) := by decide +kernel

theorem witness_ColorBlackAndWhite :
    (legal .color (pixelState 0 0 0) = true ∧ 0 < Rule.pixels (pixelState 0 0 0) ∧
      readRam (pixelState 0 0 0).mem .ibuf 0 = 0#32 ∧ readRam (pixelState 0 0 0).mem .qbuf 0 = 0#32 ∧
      readRam (pixelState 0 0 0).mem .ybuf 0 = 0#32) ∧
    readRam (pixelState 0x10000 0 0).mem .ybuf 0 = 0x10000#32 := by decide +kernel

theorem witness_LineAtTheCeilingOnlySetsRowLimit :
    (lineState.withRow 2#16).cfg.rowCeil.toNat ≤ (lineState.withRow 2#16).row.toNat := by decide +kernel

theorem witness_LineRunsTheFourStages :
    (lineState.withRow 1#16).row.toNat < lineState.cfg.rowCeil.toNat ∧ legal .line lineState = true ∧
    lineState.offset.toNat < lineState.cfg.lineLen.toNat := by decide +kernel

theorem witness_RowNeverPassesTheCeiling :
    lineState.row.toNat ≤ lineState.cfg.rowCeil.toNat ∧ (.sync : Instr) ≠ .line ∧ (.sync : Instr) ≠ .frameStart := by
  decide +kernel

/-- 95_test_vectors P2: a line of baseline samples. -/
theorem witness_BaselineLineIsBlack :
    let s := line4 [0x8000, 0x8000, 0x8000, 0x8000]
    legal .line s = true ∧ s.row.toNat < s.cfg.rowCeil.toNat ∧ (∀ k < s.cfg.lineLen.toNat, Rule.volt s k = 0) ∧
    s.cfg.tFall.toInt ≤ 0 ∧ s.cfg.yLo = 0#32 := by decide +kernel

theorem witness_InvalidAccessOnlyRaises :
    (AccessSize.byte ≠ .word) ∧ (AccessSize.half ≠ .word) ∧ (0x041#17).toNat % 4 ≠ 0 := by decide

/-- Both ends of each reserved range. -/
theorem witness_ReservedOffsetsReadZeroIgnoreWrites :
    ∀ off ∈ [0x28#17, 0x3C#17, 0x84#17, 0x3FFC#17, 0x1C400#17, 0x1FFFC#17], off.toNat % 4 = 0 ∧
      (0x28 ≤ off.toNat ∧ off.toNat ≤ 0x3C ∨ 0x84 ≤ off.toNat ∧ off.toNat ≤ 0x3FFC ∨ 0x1C400 ≤ off.toNat) := by simp

theorem witness_RamWindowReadsAndWrites :
    4095 < Rule.ramCount .raw ∧ 255 < Rule.ramCount .lut ∧ lineState.busy = false ∧ pendingFilter.busy = true := by
  decide +kernel

theorem witness_ByteLanesAreLittleEndian : 4095 < Ram.pix.words ∧ 3 < 4 := by decide

theorem witness_ConfigRegisterWrites :
    State.reset.busy = false ∧ pendingFilter.busy = true ∧ CfgReg.gain ≠ .scale := by decide +kernel

theorem witness_ResultRegistersIgnoreWrites : State.reset.busy = false := rfl

theorem witness_ControlRegisterWrites : State.reset.busy = false ∧ (6#32).getLsbD 0 = false := by decide

theorem witness_WritesWhilePending :
    pendingFilter.busy = true ∧ (1#32).getLsbD 0 = true ∧ (6#32).getLsbD 0 = false ∧
    offsetOf (.ram .lut 255) = some 0x1C3FC ∧ 255 < Ram.lut.words ∧ offsetOf .syncPos = some 0x24 := by decide +kernel

theorem witness_ReadsWhilePending :
    (pendingFilter.busy = true ∧ pendingFilter.pending = some .filter ∧ 4095 < Rule.ramCount .wavg ∧
      inRamWriteSet .filter pendingFilter.cfg .wavg 0 = true ∧ inRamWriteSet .filter pendingFilter.cfg .wavg 1 = false) ∧
    (accept .line State.reset).busy = true ∧ (accept .line State.reset).pending = some .line ∧
    writesSync .line = true ∧ writesRowLimit .line = true ∧ (0x28#17).toNat % 4 = 0 ∧ 0x28 ≤ (0x28#17).toNat := by
  decide +kernel

theorem witness_ValidReadsHaveNoSideEffect : (0x1FFFC#17).toNat % 4 = 0 ∧ State.reset.busy = false := by decide

theorem witness_FirstErrorCodeIsKept :
    (raiseErr .config State.reset).err = true ∧ isSoftReset (busWrite 0x018#17 7#32) = false ∧
    ∀ w, busWrite 0x018#17 7#32 = busWrite 0x010#17 w → w.getLsbD 2 = false := by
  refine ⟨rfl, rfl, fun w h => ?_⟩
  simp [busWrite] at h

theorem witness_IrqStaysUntilAcknowledged :
    let s := (complete State.reset).withEnables true false
    (s.irq = true ∧ step s = .next s) ∧
    (∃ t, step (s.withAgenda [.host (busWrite 0x010#17 0x10#32)]) = .next t ∧ t.irq = true) ∧
    ∃ t, step (s.withAgenda [.host (busWrite 0x014#17 0#32)]) = .next t ∧ t.irq = false ∧
      Rule.ClearsIrqSource (busWrite 0x014#17 0#32) s := by
  refine ⟨⟨rfl, rfl⟩, ⟨_, rfl, by decide +kernel⟩, ⟨_, rfl, by decide +kernel, 0#32, .inr (.inl ⟨rfl, rfl, ?_⟩)⟩⟩
  exact .inl ⟨rfl, rfl⟩

/-- A legal command at the engine is a good state too. -/
theorem witness_EveryStepKeepsStateOk : StateOk (accept .frameStart State.reset) :=
  ⟨wf_nil, fun _ => ⟨_, rfl, rfl⟩, by unfold ErrorOk; decide, by unfold SyncOk; decide⟩

/-- 95_test_vectors P4 from step 9 on, branches A (the NOP completes before step 10) and C (after step 11). -/
def scriptP4 (early : Bool) : List Turn :=
  expandScript [(false, .cmd .nop), (early, .wr 0x058#17 9#32), (false, .cmd .frameStart), (false, .wait 0)]

theorem test_script_branches :
    (scriptP4 true).length = 6 ∧ (scriptP4 false).length = 5 ∧
    gives (Sys2Proof.core.run 6 (State.reset.withAgenda (scriptP4 true)))
      (fun t => t.cfg.lineLen == 9#13 && statusWord t == 0x002#32) = true ∧
    gives (Sys2Proof.core.run 5 (State.reset.withAgenda (scriptP4 false)))
      (fun t => t.cfg.lineLen == 0#13 && statusWord t == 0x206#32) = true := by decide +kernel

theorem witness_RunScriptCompletesTheCommand : lineState.busy = false ∧ legal .line lineState = true := by decide +kernel

end Sys2Proof.Tests
end

section
/-! SUPPORT. The facts that the statements of 10_state need beside the laws: the offset back from the location it reaches,
and what holds `irq` up. -/

namespace Sys2Proof.Machine

/-! ### From a location back to its offset -/

/-- Every row of the address map names the location's own offset (20_memory R73). -/
theorem offsetOf_of_mem_registerMap : ∀ e ∈ registerMap, offsetOf e.2 = some e.1 := by decide

/-- The word index of a RAM window gives the offset back (20_memory R75). -/
theorem offsetOf_ramAt {a : Nat} (ha : 0x4000 ≤ a) (hal : a % 4 = 0) (hr : ramAt a ≠ .reserved) :
    offsetOf (ramAt a) = some a := by
  have back : ∀ r : Ram, r.base ≤ a → offsetOf (.ram r ((a - r.base) >>> 2)) = some a := fun r hle => by
    have hb : r.base % 4 = 0 := by cases r <;> rfl
    rw [offsetOf, ramAddr, Nat.shiftRight_eq_div_pow]
    exact congrArg some (by omega)
  unfold ramAt at hr ⊢
  split_ifs at hr ⊢ with h1 h2 h3 h4 h5 h6 h7
  · exact back .raw ha
  · exact back .wavg (Nat.le_of_not_lt h1)
  · exact back .ybuf (Nat.le_of_not_lt h2)
  · exact back .ibuf (Nat.le_of_not_lt h3)
  · exact back .qbuf (Nat.le_of_not_lt h4)
  · exact back .pix (Nat.le_of_not_lt h5)
  · exact back .lut (Nat.le_of_not_lt h6)
  · exact absurd rfl hr

/-- An aligned offset is the offset of the location it reaches: the converse of `locate_offsetOf`. -/
theorem offsetOf_locate {off : BitVec 17} (h4 : off.toNat % 4 = 0) (hr : locate off ≠ .reserved) :
    offsetOf (locate off) = some off.toNat := by
  unfold locate at hr ⊢
  split_ifs at hr ⊢ with hlow
  · cases hf : registerMap.find? (fun e => e.1 == off.toNat) with
    | none => simp [hf] at hr
    | some e =>
      have hoff : e.1 = off.toNat := by simpa using List.find?_some hf
      exact (offsetOf_of_mem_registerMap e (List.mem_of_find?_eq_some hf)).trans (congrArg some hoff)
  · exact offsetOf_ramAt (by omega) h4 hr

/-- A location with an offset is reached by an aligned bus offset only if that is its offset. -/
theorem eq_of_locate_eq {off : BitVec 17} {l : Loc} {a : Nat} (h4 : off.toNat % 4 = 0) (hl : locate off = l)
    (ha : offsetOf l = some a) : off = BitVec.ofNat 17 a := by
  have hr : locate off ≠ .reserved := by intro hres; rw [← hl, hres] at ha; cases ha
  have he := offsetOf_locate h4 hr
  rw [hl, ha] at he
  rw [Option.some.inj he, BitVec.ofNat_toNat, BitVec.setWidth_eq]

/-! ### Identification registers and `STATUS` -/

/-- A register that no command and no write changes reads its value and ignores writes, busy or not (10_state R50). -/
theorem hostTurn_constant {off : BitVec 17} {l : Loc} (h4 : off.toNat % 4 = 0) (hl : locate off = l)
    (hc : l = .id ∨ l = .lineMax ∨ l = .lutSize) (s : State) (w : Word) :
    hostTurn (busRead off) s = { s with rdata := regRead l s } ∧ hostTurn (busWrite off w) s = s := by
  rw [hostTurn_read h4, hostTurn_write h4, hl]
  rcases hc with rfl | rfl | rfl <;> exact ⟨locRead_exact _ (fun _ => rfl) (by decide), rfl⟩

/-- `clearStatus` bit by bit, in the words of 10_state R27. -/
theorem clearStatus_eq (w : Word) (s : State) :
    clearStatus w s = { s with
      done := if w.getLsbD 1 then false else s.done
      rowLimit := if w.getLsbD 4 then false else s.rowLimit
      err := if w.getLsbD 2 then false else s.err
      errCode := if w.getLsbD 2 then .none else s.errCode } := by
  have and_not : ∀ x b : Bool, (x && !b) = if b then false else x := by decide
  simp only [clearStatus, and_not]

/-! ### What holds `irq` up (10_state R58) -/

theorem irq_iff (s : State) :
    s.irq = true ↔ (s.done = true ∧ s.doneIe = true) ∨ (s.err = true ∧ s.errIe = true) := by
  simp [State.irq]

/-- `irq` is monotone in the two status bits and the two enables. -/
theorem irq_mono {s t : State} (hs : s.irq = true) (hd : s.done = true → t.done = true)
    (hdi : s.doneIe = true → t.doneIe = true) (he : s.err = true → t.err = true)
    (hei : s.errIe = true → t.errIe = true) : t.irq = true := by
  rw [irq_iff] at hs ⊢
  exact hs.imp (And.imp hd hdi) (And.imp he hei)

theorem raiseErr_keeps_irq {s : State} (c : ErrCode) (h : s.irq = true) : (raiseErr c s).irq = true :=
  irq_mono h id id (fun _ => rfl) id

/-- No effect of a command touches `DONE`, `ERR` or an enable. -/
theorem effectOf_irq (i : Instr) (s : State) : (effectOf i s).irq = s.irq := by
  rw [effectOf_frame i s]; rfl

theorem complete_keeps_irq {s : State} (h : s.irq = true) : (complete s).irq = true :=
  irq_mono h (fun _ => rfl) id id id

/-- A `STATUS` write drops `irq` only by the bit of a `DONE` or an `ERR` that is 1 (10_state R27). -/
theorem clearStatus_irq {s : State} (w : Word) (h : s.irq = true) :
    (clearStatus w s).irq = true ∨ (w.getLsbD 1 = true ∧ s.done = true ∨ w.getLsbD 2 = true ∧ s.err = true) := by
  by_cases hc : w.getLsbD 1 = true ∧ s.done = true ∨ w.getLsbD 2 = true ∧ s.err = true
  · exact .inr hc
  · obtain ⟨hdone, herr⟩ := not_or.1 hc
    exact .inl (irq_mono h (fun hd => by simpa [hd] using hdone) id (fun he => by simpa [he] using herr) id)

/-- A write of the enables drops `irq` only by taking away one that is 1 (10_state R28). -/
theorem withEnables_irq {s : State} (d e : Bool) (h : s.irq = true) :
    (s.withEnables d e).irq = true ∨ (d = false ∧ s.doneIe = true ∨ e = false ∧ s.errIe = true) := by
  by_cases hc : d = false ∧ s.doneIe = true ∨ e = false ∧ s.errIe = true
  · exact .inr hc
  · obtain ⟨hdi, hei⟩ := not_or.1 hc
    exact .inl (irq_mono h id (fun hd => by simpa [hd] using hdi) id (fun he => by simpa [he] using hei))

/-- Which valid writes can drop `irq`, by the location they reach. -/
theorem locWrite_irq {s : State} (l : Loc) (w : Word) (h : s.irq = true) :
    (locWrite l w s).irq = true ∨
    (l = .status ∧ (w.getLsbD 1 = true ∧ s.done = true ∨ w.getLsbD 2 = true ∧ s.err = true)) ∨
    (l = .irqEn ∧ s.busy = false ∧
      (w.getLsbD 0 = false ∧ s.doneIe = true ∨ w.getLsbD 1 = false ∧ s.errIe = true)) ∨
    (l = .ctrl ∧ w.getLsbD 0 = true) := by
  rcases locWrite_cases l w s with hw | ⟨c, -, hw⟩ | ⟨hl, hw⟩ | ⟨hl, hbit, -⟩ | ⟨i, -, -, hw⟩ |
    ⟨hb, ⟨a, b, hw⟩ | ⟨a, b, hl, -⟩ | ⟨o, hw⟩ | ⟨c, hw⟩ | ⟨r, i, hw⟩⟩
  · rw [hw]; exact .inl h
  · rw [hw]; exact .inl (raiseErr_keeps_irq c h)
  · rw [hw]; exact (clearStatus_irq w h).imp_right fun hc => .inl ⟨hl, hc⟩
  · exact .inr (.inr (.inr ⟨hl, hbit⟩))
  · rw [hw]; exact .inl h
  · rw [hw]; exact .inl h
  · have hw : locWrite l w s = s.withEnables (w.getLsbD 0) (w.getLsbD 1) := by rw [hl]; exact unlessBusy_idle _ hb
    rw [hw]
    exact (withEnables_irq _ _ h).imp_right fun hc => .inr (.inl ⟨hl, hb, hc⟩)
  · rw [hw]; exact .inl h
  · rw [hw]; exact .inl h
  · rw [hw]; exact .inl h

/-- A host transaction drops `irq` only as 10_state R58 allows. -/
theorem hostTurn_irq {s : State} (t : Transaction) (h : s.irq = true) :
    (hostTurn t s).irq = true ∨ Rule.ClearsIrqSource t s := by
  have raised : (raiseErr .access s).irq = true := raiseErr_keeps_irq _ h
  rcases hostTurn_cases t s with ⟨_, _, -, l, ht⟩ | ⟨_, _, -, ht⟩ | ⟨_, _, _, -, ht⟩ | ⟨off, w, rfl, h4, ht⟩
  · rw [ht]; exact .inl h
  · rw [ht]; exact .inl raised
  · rw [ht]; exact .inl raised
  · rw [ht]
    refine (locWrite_irq (locate off) w h).imp_right fun hc => ⟨w, ?_⟩
    rcases hc with ⟨hl, hc⟩ | ⟨hl, hc⟩ | ⟨hl, hc⟩
    · exact .inl ⟨by rw [eq_of_locate_eq h4 hl rfl], hc⟩
    · exact .inr (.inl ⟨by rw [eq_of_locate_eq h4 hl rfl], hc⟩)
    · exact .inr (.inr ⟨by rw [eq_of_locate_eq h4 hl rfl], hc⟩)

/-! ### The statements of 10_state -/

/-- Settles O53: by what a step can do, the host's turn is `hostTurn_irq` and the engine's turn takes nothing away. -/
theorem irqStaysUntilAcknowledged : Obligations.IrqStaysUntilAcknowledged := by
  refine fun s => ⟨irq_iff s, fun t hirq hstep => ?_⟩
  rcases step_cases hstep with ⟨tr, rest, hag, rfl⟩ | ⟨i, l, -, -, rfl⟩ | ⟨l, -, rfl⟩
  · exact (hostTurn_irq (s := s.withAgenda rest) tr hirq).imp_right fun hc => ⟨tr, rest, hag, hc⟩
  · exact .inl (complete_keeps_irq ((effectOf_irq i (s.withAgenda l)).trans hirq))
  · exact .inl hirq

/-- Settles O43: the three offsets reach the three constant locations. -/
theorem identificationRegistersAreConstant : Obligations.IdentificationRegistersAreConstant := by
  intro s w e he
  simp only [List.mem_cons, List.not_mem_nil, or_false] at he
  rcases he with rfl | rfl | rfl
  · exact hostTurn_constant (l := .id) (by decide) (by decide) (.inl rfl) s w
  · exact hostTurn_constant (l := .lineMax) (by decide) (by decide) (.inr (.inl rfl)) s w
  · exact hostTurn_constant (l := .lutSize) (by decide) (by decide) (.inr (.inr rfl)) s w

/-- Settles O47: offset `0x010` reaches `STATUS`, whose write is `clearStatus`. -/
theorem statusWriteOneToClear : Obligations.StatusWriteOneToClear := fun s w =>
  (hostTurn_write (off := 0x010#17) (by decide) w s).trans (clearStatus_eq w s)

end Sys2Proof.Machine
end

section
/-! SUPPORT. The facts that the statements of 20_memory need beside the laws: what the reserved location answers, and the
raised error in the words of the rules. -/

namespace Sys2Proof.Machine

/-- The model raises an error as 60_exceptions R262 writes it. -/
theorem raiseErr_eq_raised (c : ErrCode) (s : State) : raiseErr c s = Rule.raised c s := rfl

/-- No command's write set holds the reserved location, so its read takes no draw, busy or not (20_memory R74). -/
theorem locRead_reserved (s : State) : locRead .reserved s = { s with rdata := 0#32 } :=
  locRead_exact .reserved (fun _ => rfl) (by decide)

theorem locWrite_reserved (w : Word) (s : State) : locWrite .reserved w s = s := rfl

/-! ### The statements of 20_memory -/

/-- Settles O39: each reserved range reaches only the reserved location (`locate_reserved`). -/
theorem reservedOffsetsReadZeroIgnoreWrites : Obligations.ReservedOffsetsReadZeroIgnoreWrites := by
  intro s off w h4 hrange
  have hl : locate off = .reserved := locate_reserved hrange
  constructor
  · rw [hostTurn_read h4, hl, locRead_reserved]
  · rw [hostTurn_write h4, hl, locWrite_reserved]

/-- Settles O38: the bus turns a transaction that is not valid away before any location is reached. -/
theorem invalidAccessOnlyRaises : Obligations.InvalidAccessOnlyRaises := by
  intro s off size w hinvalid
  constructor
  · rw [hostTurn_invalid_read hinvalid, raiseErr_eq_raised, State.withRdata]
  · rw [hostTurn_invalid_write hinvalid, raiseErr_eq_raised]

end Sys2Proof.Machine
end

section
/-! SUPPORT. The facts that the statements of 40_command_engine need beside the laws: what a `CMD` write does with each kind
of word, and what no host transaction touches while a command is pending. -/

namespace Sys2Proof.Machine

/-! ### The `CMD` write, by the word written (40_command_engine R130) -/

theorem decodeWord_encode (i : Instr) : decodeWord (encode i) = .ok i := by
  cases i <;> rfl

/-- Only the seven opcodes name a row (30_encoding R102, R103). -/
theorem lt_of_decodeOpcode {op : BitVec 8} {i : Instr} (h : decodeOpcode op = .ok i) : op.toNat < 7 := by
  unfold decodeOpcode at h
  split at h
  case h_8 => cases h
  all_goals omega

/-- A word that spells a command has no bit above the opcode, so it is below 7 too (30_encoding R103). -/
theorem lt_of_decodeWord {w : Word} {i : Instr} (h : decodeWord w = .ok i) : w.toNat < 7 := by
  unfold decodeWord at h
  split_ifs at h with hres
  have hop := lt_of_decodeOpcode h
  have hhigh := congrArg BitVec.toNat hres
  simp only [BitVec.extractLsb'_toNat, Nat.shiftRight_eq_div_pow, BitVec.toNat_ofNat] at hop hhigh
  omega

/-- Offset `0x018` reaches `CMD`, whose write is `cmdWrite`. -/
theorem hostTurn_cmd (w : Word) (s : State) : hostTurn (busWrite 0x018#17 w) s = cmdWrite w s :=
  hostTurn_write (off := 0x018#17) (by decide) w s

theorem cmdWrite_busy {s : State} (w : Word) (hb : s.busy = true) : cmdWrite w s = raiseErr .busy s := by
  simp only [cmdWrite, hb, if_true]

theorem cmdWrite_illegal {s : State} {w : Word} (hb : s.busy = false) (hw : 7 ≤ w.toNat) :
    cmdWrite w s = raiseErr .illegalCmd s := by
  rcases cmdWrite_cases w s with ⟨hbusy, -⟩ | ⟨-, -, h⟩ | ⟨i, -, hd, -⟩ | ⟨i, -, hd, -⟩
  · rw [hb] at hbusy; cases hbusy
  · exact h
  · exact absurd (lt_of_decodeWord hd) (Nat.not_lt.2 hw)
  · exact absurd (lt_of_decodeWord hd) (Nat.not_lt.2 hw)

theorem cmdWrite_encode {s : State} (i : Instr) (hb : s.busy = false) :
    cmdWrite (encode i) s = if legal i s then accept i s else raiseErr .config s := by
  simp only [cmdWrite, hb, decodeWord_encode, Bool.false_eq_true, if_false]

/-! ### Reports: the fields that host transactions may change while a command is pending (40_command_engine R133) -/

/-- `s` with the reports of `u`: the status bits a host transaction may set or clear while a command is pending, the word
returned to the host and the count of draws. -/
def State.withReportsOf (s u : State) : State :=
  { s with done := u.done, err := u.err, errCode := u.errCode, rowLimit := u.rowLimit, rdata := u.rdata, draws := u.draws }

/-- A valid write while a command is pending changes reports only, unless it is a soft reset. -/
theorem locWrite_pending {s : State} {l : Loc} {w : Word} (hb : s.busy = true)
    (hreset : ¬ (l = .ctrl ∧ w.getLsbD 0 = true)) : locWrite l w s = s.withReportsOf (locWrite l w s) := by
  rcases locWrite_cases l w s with h | ⟨c, -, h⟩ | ⟨-, h⟩ | ⟨hl, hbit, -⟩ | ⟨i, hidle, -⟩ | ⟨hidle, -⟩
  · rw [h]; rfl
  · rw [h]; rfl
  · rw [h]; rfl
  · exact absurd ⟨hl, hbit⟩ hreset
  · rw [hb] at hidle; cases hidle
  · rw [hb] at hidle; cases hidle

/-- A host transaction while a command is pending changes reports only, unless it is a soft reset. -/
theorem hostTurn_pending {s : State} {t : Transaction} (hb : s.busy = true) (hreset : isSoftReset t = false) :
    hostTurn t s = s.withReportsOf (hostTurn t s) := by
  rcases hostTurn_cases t s with ⟨_, _, -, l, h⟩ | ⟨_, _, -, h⟩ | ⟨_, _, _, -, h⟩ | ⟨off, w, rfl, h4, h⟩
  · rw [h]; rfl
  · rw [h]; rfl
  · rw [h]; rfl
  · rw [h]
    refine locWrite_pending hb fun ⟨hl, hbit⟩ => ?_
    have hsoft : isSoftReset (busWrite off w) = true := by rw [eq_of_locate_eq h4 hl rfl]; exact hbit
    rw [hreset] at hsoft
    cases hsoft

/-- Host transactions while a command is pending change reports only, as long as none is a soft reset. -/
theorem afterHost_pending {s : State} {ts : List Transaction} (hb : s.busy = true)
    (hreset : ∀ t ∈ ts, isSoftReset t = false) : afterHost ts s = s.withReportsOf (afterHost ts s) := by
  induction ts generalizing s with
  | nil => rfl
  | cons t ts ih =>
    have hturn := hostTurn_pending hb (hreset t List.mem_cons_self)
    have hbusy : (hostTurn t s).busy = true := by rw [hturn]; exact hb
    have hrest : afterHost (t :: ts) s = (hostTurn t s).withReportsOf (afterHost (t :: ts) s) :=
      ih hbusy fun t' ht' => hreset t' (List.mem_cons_of_mem _ ht')
    rw [hturn] at hrest
    exact hrest

/-! ### No effect reads a report (40_command_engine R136) -/

theorem syncEffect_withReportsOf (s u : State) : syncEffect (s.withReportsOf u) = (syncEffect s).withReportsOf u := by
  have hfall : fallWindow (s.withReportsOf u) = fallWindow s := rfl
  have hrises : ∀ f, rises (s.withReportsOf u) f = rises s f := fun _ => rfl
  unfold syncEffect
  rw [hfall]
  cases fallWindow s with
  | none => rfl
  | some f =>
    simp only [hrises]
    cases (rises s f).min? <;> rfl

theorem demodEffect_withReportsOf (s u : State) : demodEffect (s.withReportsOf u) = (demodEffect s).withReportsOf u := rfl

theorem colorEffect_withReportsOf (s u : State) : colorEffect (s.withReportsOf u) = (colorEffect s).withReportsOf u := rfl

theorem lineStages_withReportsOf (s u : State) : lineStages (s.withReportsOf u) = (lineStages s).withReportsOf u := by
  have hfilter : filterEffect (s.withReportsOf u) = (filterEffect s).withReportsOf u := rfl
  simp only [lineStages, hfilter, syncEffect_withReportsOf, demodEffect_withReportsOf, colorEffect_withReportsOf]

/-- A command started with other reports does the same to everything else. -/
theorem effectOf_withReportsOf (i : Instr) (s u : State) :
    ∃ v, effectOf i (s.withReportsOf u) = (effectOf i s).withReportsOf v := by
  cases i
  case sync => exact ⟨u, syncEffect_withReportsOf s u⟩
  case line =>
    by_cases hceil : s.cfg.rowCeil.toNat ≤ s.row.toNat
    · refine ⟨u.withRowLimit, ?_⟩
      have hlate : lineEffect (s.withReportsOf u) = (s.withReportsOf u).withRowLimit := if_pos hceil
      have hnow : lineEffect s = s.withRowLimit := if_pos hceil
      simp only [effectOf, hlate, hnow]
      rfl
    · refine ⟨u, ?_⟩
      have hlate : lineEffect (s.withReportsOf u) = (lineStages (s.withReportsOf u)).withRow (s.row + 1#16) :=
        if_neg hceil
      have hnow : lineEffect s = (lineStages s).withRow (s.row + 1#16) := if_neg hceil
      simp only [effectOf, hlate, hnow, lineStages_withReportsOf]
      rfl
  all_goals exact ⟨u, rfl⟩

/-! ### The statements of 40_command_engine -/

/-- Settles O11: the delay changes reports only (`afterHost_pending`), and no effect reads one. -/
theorem operandsStableWhilePending : Obligations.OperandsStableWhilePending := by
  intro s ts hb hreset t
  have ht : t = s.withReportsOf t := afterHost_pending hb hreset
  generalize t = u at ht
  rw [ht]
  refine ⟨hb, rfl, rfl, rfl, rfl, rfl, rfl, rfl, fun i _ => ?_⟩
  obtain ⟨v, hv⟩ := effectOf_withReportsOf i s u
  refine ⟨_, _, exec_eq i s, exec_eq i _, ?_⟩
  rw [hv]
  exact ⟨rfl, rfl, rfl, rfl, rfl⟩

/-- Settles O8: a `CMD` write by the word written, busy or idle. -/
theorem commandWriteOutcome : Obligations.CommandWriteOutcome := by
  intro s w
  rw [hostTurn_cmd]
  refine ⟨cmdWrite_busy w, cmdWrite_illegal, fun i hb hw hl => ?misconfigured, fun i hb hw hl => ?accepted⟩
  all_goals
    rw [hw, cmdWrite_encode i hb, hl]
    rfl

/-- Settles O7: each row is the conjunction of its predicates, and the `CMD` write is where they are checked. -/
theorem legalityTable : Obligations.LegalityTable := by
  intro s line win chunk scale amp y iq off
  refine ⟨rfl, rfl, ?filter, ?sync, ?demod, ?color, ?line, fun i hb => ?write⟩
  case write =>
    rw [hostTurn_cmd, cmdWrite_encode i hb]
    rfl
  all_goals
    simp only [legal, Bool.and_eq_true, lLine_iff, lWin_iff, lChunk_iff, lScale_iff, lAmp_iff, lY_iff, lIq_iff, lOff_iff,
      and_assoc, line, win, chunk, scale, amp, y, iq, off]

end Sys2Proof.Machine
end

section
/-! SUPPORT. The facts that the statements of 41_reconstructor need beside the laws: the model's FILTER and SYNC in the words
of the rules. -/

namespace Sys2Proof.Machine

/-! ### The windows of a legal configuration -/

theorem legal_filter {s : State} (h : legal .filter s = true) :
    lLine s.cfg = true ∧ lWin s.cfg = true ∧ lScale s.cfg = true := by
  simpa [legal, and_assoc] using h

theorem legal_sync {s : State} (h : legal .sync s = true) : lLine s.cfg = true ∧ lWin s.cfg = true := by
  simpa [legal] using h

/-- The windows of a legal configuration are those of the rule (00_scope R12). -/
theorem nwin_eq_windows {s : State} (hwin : lWin s.cfg = true) : nwin s.cfg = Rule.windows s := nwin_of_legal hwin

theorem windows_le {s : State} (hline : lLine s.cfg = true) : Rule.windows s ≤ 4096 :=
  (Nat.div_le_self _ _).trans (lLine_iff.1 hline).2

/-- A window index fits its field of `SYNC_POS` (10_state R32). -/
theorem toNat_windowIndex {s : State} {j : Nat} (hline : lLine s.cfg = true) (hj : j < Rule.windows s) :
    (BitVec.ofNat 16 j).toNat = j := by
  have hle := windows_le hline
  rw [BitVec.toNat_ofNat, Nat.mod_eq_of_lt (by omega)]

/-- A window's first sample is a sample of the line (41_reconstructor R152). -/
theorem window_start_lt {s : State} {r : Nat} (hwin : lWin s.cfg = true) (hr : r < Rule.windows s) :
    r * s.cfg.winLen.toNat < s.cfg.lineLen.toNat :=
  calc r * s.cfg.winLen.toNat
      < Rule.windows s * s.cfg.winLen.toNat := Nat.mul_lt_mul_of_pos_right hr (lWin_iff.1 hwin).1
    _ ≤ s.cfg.lineLen.toNat := Nat.div_mul_le_self _ _

/-! ### FILTER: the stored average against the exact one (41_reconstructor R142, R143) -/

theorem volt_eq_rule (s : State) (k : Nat) (hscale : lScale s.cfg = true) :
    volt s.cfg (readRam s.mem .raw k) = Rule.volt s k := by
  have hsample : ((readRam s.mem .raw k).extractLsb' 0 16).toNat = (readRam s.mem .raw k).toNat % 2 ^ 16 := by simp
  have hq : q s.cfg.scale = Rule.real s.cfg.scale := by norm_num [q, Rule.real]
  rw [volt, divQ_of_ne (q_ne_zero (lScale_iff.1 hscale)), hsample, hq, Nat.shiftRight_eq_div_pow, Rule.volt]
  push_cast
  rfl

/-- The model's mean over a window is the rule's. -/
theorem mean_windowVolts (s : State) (j : Nat) (hwin : lWin s.cfg = true) (hscale : lScale s.cfg = true) :
    mean (windowVolts s j) = Rule.windowMean s j := by
  have hlen : (windowVolts s j).length = s.cfg.winLen.toNat := by simp [windowVolts]
  have hne : windowVolts s j ≠ [] :=
    List.ne_nil_of_length_pos (by rw [hlen]; exact (lWin_iff.1 hwin).1)
  rw [mean_of_ne_nil hne, hlen, Rule.windowMean, Rule.meanOver]
  simp only [windowVolts, volt_eq_rule s _ hscale]
  rfl

/-- What SYNC reads of a window after FILTER (41_reconstructor R143). -/
theorem readRam_filterEffect {s : State} {j : Nat} (hline : lLine s.cfg = true) (hwin : lWin s.cfg = true)
    (hj : j < nwin s.cfg) : readRam (filterEffect s).mem .wavg j = windowAverage s j := by
  have hram : j < Ram.wavg.words := hj.trans_le (nwin_le hline hwin)
  rw [filterEffect, State.withMem_mem, readRam_writeRange, if_pos ⟨rfl, hj, hram⟩]
  rfl

/-- A stored value is below a threshold word as the exact value is, unless it saturated at the low end; at the high end
no word lies above it (41_reconstructor R153). -/
theorem toInt_fx_lt_iff {x : ℚ} (w : Word) (hlow : -32768 ≤ x) : (fx x).toInt < w.toInt ↔ x < Rule.real w := by
  have hle := w.toInt_lt
  have hfloor : -2147483648 ≤ ⌊x * 65536⌋ := Int.le_floor.2 (by push_cast; linarith)
  have hsat : sat32 ⌊x * 65536⌋ < w.toInt ↔ ⌊x * 65536⌋ < w.toInt := by unfold sat32 clampZ; omega
  rw [toInt_fx, hsat, Int.floor_lt, Rule.real, lt_div_iff₀ (by norm_num)]
  norm_num

/-- A stored value is above a threshold word when the exact value is at least one unit above it, unless it saturated at
the high end; at the low end no word lies below it (41_reconstructor R153). -/
theorem lt_toInt_fx_iff {x : ℚ} (w : Word) (hhigh : x < 32768) :
    w.toInt < (fx x).toInt ↔ Rule.real w + 1 / 2 ^ 16 ≤ x := by
  have hge := w.le_toInt
  have hfloor : ⌊x * 65536⌋ < 2147483648 := Int.floor_lt.2 (by push_cast; linarith)
  have hsat : w.toInt < sat32 ⌊x * 65536⌋ ↔ w.toInt + 1 ≤ ⌊x * 65536⌋ := by unfold sat32 clampZ; omega
  rw [toInt_fx, hsat, Int.le_floor, Rule.real, ← add_div, div_le_iff₀ (by norm_num)]
  norm_num

/-! ### SYNC: the two scans (41_reconstructor R150) -/

theorem mem_falls {s : State} {j : Nat} : j ∈ falls s ↔ j < nwin s.cfg ∧ Rule.Fall s j := by
  simp [falls, isFall, Rule.Fall]

theorem mem_rises {s : State} {f j : Nat} : j ∈ rises s f ↔ j < nwin s.cfg ∧ f < j ∧ Rule.Rise s j := by
  simp [rises, isRise, Rule.Rise]

theorem fallWindow_eq_none {s : State} (hwin : lWin s.cfg = true) (hno : ∀ j < Rule.windows s, ¬ Rule.Fall s j) :
    fallWindow s = none := by
  have hnil : falls s = [] := List.eq_nil_iff_forall_not_mem.2 fun j hj => by
    obtain ⟨hlt, hfall⟩ := mem_falls.1 hj
    exact hno j (nwin_eq_windows hwin ▸ hlt) hfall
  simp [fallWindow, hnil]

/-- The scan finds the rule's fall window: the greatest fall in reverse, the least forward. -/
theorem fallWindow_eq_some {s : State} {f : Nat} (hwin : lWin s.cfg = true) (hf : Rule.FallWindow s f) :
    fallWindow s = some f := by
  obtain ⟨hlt, hfall, hforward, hreverse⟩ := hf
  rw [← nwin_eq_windows hwin] at hlt hreverse
  have hmem : f ∈ falls s := mem_falls.2 ⟨hlt, hfall⟩
  unfold fallWindow
  cases hscan : s.scanMode with
  | true =>
    refine List.max?_eq_some_iff.2 ⟨hmem, fun j hj => ?_⟩
    obtain ⟨hjlt, hjfall⟩ := mem_falls.1 hj
    exact Nat.le_of_not_lt fun hlater => hreverse hscan j hlater hjlt hjfall
  | false =>
    refine List.min?_eq_some_iff.2 ⟨hmem, fun j hj => ?_⟩
    exact Nat.le_of_not_lt fun hearlier => hforward hscan j hearlier (mem_falls.1 hj).2

theorem min_rises_eq_none {s : State} {f : Nat} (hwin : lWin s.cfg = true)
    (hno : ∀ j, f < j → j < Rule.windows s → ¬ Rule.Rise s j) : (rises s f).min? = none := by
  refine List.min?_eq_none_iff.2 (List.eq_nil_iff_forall_not_mem.2 fun j hj => ?_)
  obtain ⟨hlt, hlater, hrise⟩ := mem_rises.1 hj
  exact hno j hlater (nwin_eq_windows hwin ▸ hlt) hrise

theorem min_rises_eq_some {s : State} {f r : Nat} (hwin : lWin s.cfg = true) (hr : Rule.RiseWindow s f r) :
    (rises s f).min? = some r := by
  obtain ⟨hlater, hlt, hrise, hfirst⟩ := hr
  rw [← nwin_eq_windows hwin] at hlt
  refine List.min?_eq_some_iff.2 ⟨mem_rises.2 ⟨hlt, hlater, hrise⟩, fun j hj => ?_⟩
  obtain ⟨-, hjlater, hjrise⟩ := mem_rises.1 hj
  exact Nat.le_of_not_lt fun hearlier => hfirst j hjlater hearlier hjrise

/-! ### SYNC: its three results (41_reconstructor R151, R152) -/

theorem syncEffect_no_fall {s : State} (hf : fallWindow s = none) : syncEffect s = syncMiss none s := by
  simp only [syncEffect, hf]

theorem syncEffect_no_rise {s : State} {f : Nat} (hf : fallWindow s = some f) (hr : (rises s f).min? = none) :
    syncEffect s = syncMiss (some f) s := by
  simp only [syncEffect, hf, hr]

theorem syncEffect_found {s : State} {f r : Nat} (hf : fallWindow s = some f) (hr : (rises s f).min? = some r) :
    syncEffect s = syncFound f r s := by
  simp only [syncEffect, hf, hr]

/-- The first sample of the aligned line is the one at `OFFSET` (41_reconstructor R154). -/
theorem aligned_zero {s : State} (h : s.offset.toNat < s.cfg.lineLen.toNat) :
    aligned s 0 = readRam s.mem .raw s.offset.toNat := by
  rw [aligned, alignedIndex, remOf_of_pos (by omega), Nat.zero_add, Nat.mod_eq_of_lt h]

/-- With `T_FALL` at most `T_RISE` no window is both a fall and a rise. -/
theorem not_rise_of_fall {s : State} {j : Nat} (hthr : s.cfg.tFall.toInt ≤ s.cfg.tRise.toInt) (hf : Rule.Fall s j) :
    ¬ Rule.Rise s j := by
  unfold Rule.Fall at hf
  unfold Rule.Rise
  omega

/-! ### The statements of 41_reconstructor -/

/-- Settles O20: FILTER stores the rounded exact mean, and the rounding compares with a word as the mean does. -/
theorem storedAverageComparesLikeExactAverage : Obligations.StoredAverageComparesLikeExactAverage := by
  intro s j hlegal hj
  obtain ⟨hline, hwin, hscale⟩ := legal_filter hlegal
  have hread : readRam (complete (filterEffect s)).mem .wavg j = fx (Rule.windowMean s j) := by
    rw [complete_mem, readRam_filterEffect hline hwin (by rwa [nwin_eq_windows hwin]), windowAverage,
      mean_windowVolts s j hwin hscale]
  refine ⟨_, exec_eq .filter s, fun hlow => ?fall, fun hhigh => ?rise⟩
  case fall =>
    rw [← toInt_fx_lt_iff s.cfg.tFall hlow, ← hread]
    rfl
  case rise =>
    rw [← lt_toInt_fx_iff s.cfg.tRise hhigh, ← hread]
    rfl

/-- Settles O21: an empty scan for the fall, or for the rise, leads to `Miss`. -/
theorem syncWithoutPairMisses : Obligations.SyncWithoutPairMisses := by
  intro s hlegal
  obtain ⟨hline, hwin⟩ := legal_sync hlegal
  refine ⟨fun hno => ?noFall, fun f hf hno => ⟨BitVec.ofNat 16 f, toNat_windowIndex hline hf.1, ?noRise⟩⟩
  case noFall =>
    rw [exec_eq, effectOf, syncEffect_no_fall (fallWindow_eq_none hwin hno)]
    rfl
  case noRise =>
    rw [exec_eq, effectOf, syncEffect_no_rise (fallWindow_eq_some hwin hf) (min_rises_eq_none hwin hno)]
    rfl

/-- Settles O22: both scans succeed, and the rise window starts inside the line. -/
theorem syncAlignsToTheRiseWindow : Obligations.SyncAlignsToTheRiseWindow := by
  intro s f r hlegal hf hr
  obtain ⟨hline, hwin⟩ := legal_sync hlegal
  have ⟨hflt, _⟩ := hf
  have ⟨_, hrlt, _⟩ := hr
  have hstart := window_start_lt hwin hrlt
  have hoff : (BitVec.ofNat 16 (r * s.cfg.winLen.toNat)).toNat = r * s.cfg.winLen.toNat := by
    have hle := (lLine_iff.1 hline).2
    rw [BitVec.toNat_ofNat, Nat.mod_eq_of_lt (by omega)]
  refine ⟨_, _, _, hoff, hoff.trans_lt hstart, toNat_windowIndex hline hflt, toNat_windowIndex hline hrlt, ?_⟩
  rw [exec_eq, effectOf, syncEffect_found (fallWindow_eq_some hwin hf) (min_rises_eq_some hwin hr)]
  rfl

/-- What a found pair leaves in the registers, and the sample the aligned line then begins at (41_reconstructor R152, R154). -/
theorem exec_sync_found {s : State} {f r : Nat} (hlegal : legal .sync s = true) (hf : Rule.FallWindow s f)
    (hr : Rule.RiseWindow s f r) :
    ∃ t, exec .sync s = .next t ∧ t.alignMiss = false ∧ t.fallIdx.toNat = f ∧ t.riseIdx.toNat = r ∧
      t.offset.toNat = r * s.cfg.winLen.toNat ∧ aligned t 0 = readRam s.mem .raw (r * s.cfg.winLen.toNat) := by
  obtain ⟨off, fall, rise, hoff, hlt, hfall, hrise, hexec⟩ := syncAlignsToTheRiseWindow s f r hlegal hf hr
  refine ⟨_, hexec, rfl, hfall, hrise, hoff, ?_⟩
  rw [← hoff]
  exact aligned_zero hlt

/-- Settles O23: the fall window is the last window of the second pulse in reverse, and the first window of the first pulse
forward, where the rest of that pulse holds no rise. -/
theorem twoPulsesAlignToTheScannedOne : Obligations.TwoPulsesAlignToTheScannedOne := by
  intro s a1 b1 a2 b2 hlegal hab1 hgap hab2 hlast hpulses hrise1 hrise2 hthr
  cases hscan : s.scanMode with
  | true =>
    have hfall : Rule.FallWindow s b2 :=
      ⟨by omega, (hpulses b2 (by omega)).2 (.inr ⟨hab2, le_rfl⟩), by simp [hscan], fun _ j hlater hj hfj => by
        have := (hpulses j hj).1 hfj
        omega⟩
    have hrise : Rule.RiseWindow s b2 (b2 + 1) := ⟨by omega, hlast, hrise2, fun j _ _ => by omega⟩
    obtain ⟨t, hexec, hmiss, hresult⟩ := exec_sync_found hlegal hfall hrise
    exact ⟨t, hexec, hmiss, fun _ => hresult, by simp⟩
  | false =>
    have hfall : Rule.FallWindow s a1 :=
      ⟨by omega, (hpulses a1 (by omega)).2 (.inl ⟨le_rfl, hab1⟩), fun _ j hearlier hfj => by
        have := (hpulses j (by omega)).1 hfj
        omega, by simp [hscan]⟩
    have hrise : Rule.RiseWindow s a1 (b1 + 1) := ⟨by omega, by omega, hrise1, fun j _ _ =>
      not_rise_of_fall hthr ((hpulses j (by omega)).2 (.inl ⟨by omega, by omega⟩))⟩
    obtain ⟨t, hexec, hmiss, hresult⟩ := exec_sync_found hlegal hfall hrise
    exact ⟨t, hexec, hmiss, by simp, fun _ => hresult⟩

end Sys2Proof.Machine
end

section
/-! SUPPORT. The facts that the statements of 42_demodulator need beside the laws: the model's table index in the words of
the rule, and why it depends on the fraction of the carrier phase only. -/

namespace Sys2Proof.Machine

/-! ### The table index as the floored phase -/

/-- The model's index is the integer formula of 42_demodulator R162: the remainder is never negative, so nothing is lost
where the model leaves the integers. -/
theorem phaseIndex_eq_formula (c : ConfigRegs) (p : Nat) :
    (phaseIndex c p : Int) = ((p * 2 ^ 16 + c.phaseShift.toInt) * c.carrierInc.toNat) / 2 ^ 40 % 256 :=
  Int.toNat_of_nonneg (Int.emod_nonneg _ (by norm_num))

/-- The phase in 256ths of a cycle is one integer over 2^40 (42_demodulator R162). -/
theorem mul_cycles_eq_div (c : ConfigRegs) (p : Nat) :
    256 * Rule.cycles c p =
      (((p * 2 ^ 16 + c.phaseShift.toInt) * c.carrierInc.toNat : Int) : ℚ) / ((2 ^ 40 : Nat) : ℚ) := by
  rw [Rule.cycles, Rule.real]
  push_cast
  ring

/-- The rational floor of the phase is the formula's integer floor division, also where the shift makes it negative. -/
theorem floor_mul_cycles (c : ConfigRegs) (p : Nat) :
    ⌊256 * Rule.cycles c p⌋ = ((p * 2 ^ 16 + c.phaseShift.toInt) * c.carrierInc.toNat) / 2 ^ 40 := by
  rw [mul_cycles_eq_div, Rat.floor_intCast_div_natCast]
  rfl

/-- Cutting a cycle in `n` parts, the part that the fraction of a phase lies in is the whole phase's part, modulo `n`. -/
theorem floor_mul_fract {n : Nat} (hn : 0 < n) (x : ℚ) : ⌊n * Int.fract x⌋ = ⌊n * x⌋ % n := by
  have hpos : (0 : ℚ) < n := by exact_mod_cast hn
  have hsplit : ⌊n * x⌋ = ⌊n * Int.fract x⌋ + n * ⌊x⌋ := by
    rw [← Int.floor_add_intCast]
    congr 1
    push_cast
    rw [← mul_add, Int.fract_add_floor]
  have hlow : 0 ≤ ⌊n * Int.fract x⌋ := Int.floor_nonneg.2 (mul_nonneg hpos.le (Int.fract_nonneg x))
  have hhigh : ⌊n * Int.fract x⌋ < n := Int.floor_lt.2 (by
    exact_mod_cast mul_lt_of_lt_one_right hpos (Int.fract_lt_one x))
  rw [hsplit, Int.add_mul_emod_self_left, Int.emod_eq_of_lt hlow hhigh]

theorem phaseIndex_eq_floor (c : ConfigRegs) (p : Nat) : (phaseIndex c p : Int) = ⌊256 * Rule.cycles c p⌋ % 256 := by
  rw [phaseIndex_eq_formula, floor_mul_cycles]

/-- The table index depends on the fraction of the phase only. -/
theorem phaseIndex_eq_floor_fract (c : ConfigRegs) (p : Nat) :
    (phaseIndex c p : Int) = ⌊256 * Int.fract (Rule.cycles c p)⌋ :=
  (phaseIndex_eq_floor c p).trans (floor_mul_fract (n := 256) (by norm_num) _).symm

/-! ### Whole carrier cycles -/

/-- `n` samples on, the phase is larger by the cycles that `n` increments make (42_demodulator R162). -/
theorem cycles_add (c : ConfigRegs) (n p : Nat) :
    Rule.cycles c (n + p) = Rule.cycles c p + ((n * c.carrierInc.toNat : Nat) : ℚ) / 2 ^ 32 := by
  simp only [Rule.cycles]
  push_cast
  ring

/-- A whole number of carrier cycles does not move the table index (42_demodulator R161). -/
theorem phaseIndex_add_of_wholeCycles {c : ConfigRegs} {n : Nat} (h : 2 ^ 32 ∣ n * c.carrierInc.toNat) (p : Nat) :
    phaseIndex c (n + p) = phaseIndex c p := by
  obtain ⟨k, hk⟩ := h
  have hphase : Rule.cycles c (n + p) = Rule.cycles c p + k := by
    rw [cycles_add, hk]
    push_cast
    ring
  have hindex : (phaseIndex c (n + p) : Int) = phaseIndex c p := by
    rw [phaseIndex_eq_floor_fract, hphase, Int.fract_add_natCast, ← phaseIndex_eq_floor_fract]
  exact_mod_cast hindex

theorem sampleIndex_lineLocal {s : State} (h : s.pMode = false) (i : Nat) : sampleIndex s i = i := by
  simp [sampleIndex, h]

theorem sampleIndex_frameGlobal {s : State} (h : s.pMode = true) (i : Nat) :
    sampleIndex s i = s.row.toNat * s.cfg.lineLen.toNat + i := by
  simp [sampleIndex, h]

/-! ### The statements of 42_demodulator -/

/-- Settles O25: the integer formula is the floored phase, and so the floored fraction of it; the examples are evaluated. -/
theorem phaseIndexIsTheFlooredPhase : Obligations.PhaseIndexIsTheFlooredPhase :=
  ⟨fun c p => ⟨phaseIndex_eq_formula c p, phaseIndex_eq_floor c p, phaseIndex_eq_floor_fract c p, phaseIndex_lt c p⟩,
    by decide, by decide⟩

/-- Settles O26: `ROW` lines of whole cycles are whole cycles. -/
theorem sampleIndexModesAgreeOnWholeCycles : Obligations.SampleIndexModesAgreeOnWholeCycles := by
  intro s i
  refine ⟨fun h => sampleIndex_lineLocal h i, fun h => sampleIndex_frameGlobal h i, fun hwhole => ?_⟩
  refine phaseIndex_add_of_wholeCycles ?_ i
  rw [mul_assoc]
  exact hwhole.mul_left _

end Sys2Proof.Machine
end

section
/-! SUPPORT. The facts that the statements of 43_color need beside the laws: a channel as the integer formula of the rule, the
four bytes of a pixel word, and what COLOR leaves in `PIX`. -/

namespace Sys2Proof.Machine

/-! ### A channel (43_color R192) -/

/-- The matrix row of three stored words is one integer over `10000 * 2^16` (43_color R192). -/
theorem matrixRow_eq_div (y i qq : Word) (a b : Int) :
    255 * (q y + (a : ℚ) / 10000 * q i + (b : ℚ) / 10000 * q qq) =
      ((255 * (10000 * y.toInt + a * i.toInt + b * qq.toInt) : Int) : ℚ) / ((10000 * 2 ^ 16 : Nat) : ℚ) := by
  simp only [q, s32]
  push_cast
  ring

/-- The rational floor of a channel is the rule's integer floor division, also where the sum is negative. -/
theorem channel_eq_rule (y i qq : Word) (a b : Int) : channel (q y) (q i) (q qq) (a, b) = Rule.channel a b y i qq := by
  rw [channel, matrixRow_eq_div, Rat.floor_intCast_div_natCast]
  rfl

/-- With ordered bounds it does not matter which of them a clamp applies first. -/
theorem clampZ_eq_max_min (x : Int) {lo hi : Int} (h : lo ≤ hi) : clampZ x lo hi = max lo (min hi x) := by
  unfold clampZ
  omega

/-- Truncating commutes with clamping to integer bounds, because the floor is monotone and leaves the bounds where they
are (43_color R192). -/
theorem floor_clip (x : ℚ) (lo hi : Int) : ⌊Rule.clip x lo hi⌋ = clampZ ⌊x⌋ lo hi := by
  rw [Rule.clip, Int.floor_mono.map_min, Int.floor_mono.map_max, Int.floor_intCast, Int.floor_intCast, clampZ]

/-- Without chroma every channel is the clamped luma, whatever the matrix row (43_color R195). -/
theorem channel_zero_chroma (y : ℚ) (ab : Int × Int) : channel y 0 0 ab = clampZ ⌊255 * y⌋ 0 255 := by
  simp only [channel, mul_zero, add_zero]

/-! ### A pixel word (43_color R193) -/

theorem toNat_channelByte {n : Int} (h : 0 ≤ n ∧ n ≤ 255) : ((channelByte n).toNat : Int) = n := by
  rw [channelByte, BitVec.toNat_ofInt]
  omega

/-- A byte below a word: the word moves up by eight bits. -/
theorem toNat_append_byte {n : Nat} (x : BitVec n) (c : BitVec 8) : (x ++ c).toNat = x.toNat * 2 ^ 8 + c.toNat := by
  rw [BitVec.toNat_append, ← Nat.shiftLeft_add_eq_or_of_lt c.isLt, Nat.shiftLeft_eq]

/-- The number a pixel word spells: alpha, then the three bytes, each in its own eight bits. -/
theorem toNat_packPixel (r g b : Int) :
    (packPixel r g b).toNat = 255 * 2 ^ 24 + (channelByte r).toNat * 2 ^ 16 + (channelByte g).toNat * 2 ^ 8
      + (channelByte b).toNat := by
  simp only [packPixel, toNat_append_byte, BitVec.toNat_ofNat]
  ring

theorem toNat_pixelOf (y i qq : ℚ) :
    ((pixelOf y i qq).toNat : Int) = 255 * 2 ^ 24 + channel y i qq matrixR * 2 ^ 16
      + channel y i qq matrixG * 2 ^ 8 + channel y i qq matrixB := by
  rw [pixelOf, toNat_packPixel]
  push_cast
  simp only [toNat_channelByte (channel_mem _ _ _ _)]

theorem pixelOf_black : pixelOf 0 0 0 = 0xFF000000#32 := by
  simp only [pixelOf, channel_zero_chroma, mul_zero, Int.floor_zero]
  rfl

theorem pixelOf_white : pixelOf 1 0 0 = 0xFFFFFFFF#32 := by
  simp only [pixelOf, channel_zero_chroma, mul_one, Int.floor_ofNat]
  rfl

theorem q_one : q 0x00010000#32 = 1 := by
  have hone : s32 0x00010000#32 = 65536 := by decide
  rw [q, hone]
  norm_num

/-! ### What COLOR stores (43_color R191) -/

theorem legal_color {s : State} (h : legal .color s = true) : lLine s.cfg = true ∧ lChunk s.cfg = true := by
  simpa [legal] using h

/-- The chunks of a legal configuration are those of the rule (00_scope R12). -/
theorem npix_eq_pixels {s : State} (hchunk : lChunk s.cfg = true) : npix s.cfg = Rule.pixels s := npix_of_legal hchunk

theorem readRam_colorEffect {s : State} {c : Nat} (hlegal : legal .color s = true) (hc : c < Rule.pixels s) :
    readRam (colorEffect s).mem .pix c = colorPixel s c := by
  obtain ⟨hline, hchunk⟩ := legal_color hlegal
  rw [← npix_eq_pixels hchunk] at hc
  have hram : c < Ram.pix.words := hc.trans_le (npix_le hline hchunk)
  rw [colorEffect, State.withMem_mem, readRam_writeRange, if_pos ⟨rfl, hc, hram⟩]
  rfl

/-- The pixel of a chunk is the rule's three channels of its stored words. -/
theorem toNat_colorPixel (s : State) (c : Nat) :
    ((colorPixel s c).toNat : Int) = 255 * 2 ^ 24
      + Rule.channel 24563 16190 (readRam s.mem .ybuf c) (readRam s.mem .ibuf c) (readRam s.mem .qbuf c) * 2 ^ 16
      + Rule.channel (-2721) (-6474) (readRam s.mem .ybuf c) (readRam s.mem .ibuf c) (readRam s.mem .qbuf c) * 2 ^ 8
      + Rule.channel (-11070) 17046 (readRam s.mem .ybuf c) (readRam s.mem .ibuf c) (readRam s.mem .qbuf c) := by
  simp only [colorPixel, toNat_pixelOf, matrixR, matrixG, matrixB, channel_eq_rule]

theorem readByte_colorEffect_outside {s : State} (hchunk : lChunk s.cfg = true) {a : Nat}
    (ha : Rule.Outside .pix (Rule.pixels s) a) : readByte (colorEffect s).mem a = readByte s.mem a := by
  rw [← npix_eq_pixels hchunk] at ha
  exact readByte_writeRange_outside _ _ _ _ ha

/-! ### The statements of 43_color -/

/-- Settles O31: one fraction over `10000 * 2^16` has the integer division as its floor, and the floor commutes with the
clamp. -/
theorem channelIsTheIntegerFormula : Obligations.ChannelIsTheIntegerFormula :=
  ⟨channel_eq_rule, fun _ _ _ _ _ => clampZ_eq_max_min _ (by norm_num), fun x => by exact_mod_cast floor_clip x 0 255⟩

/-- Settles O32: each pixel is read back as it was computed, and the store stays inside the pixel words. -/
theorem colorStoresPixels : Obligations.ColorStoresPixels := by
  intro s hlegal
  refine ⟨(colorEffect s).mem, exec_eq .color s, fun c hc => ?pixel, fun a ha => ?outside⟩
  case pixel =>
    rw [readRam_colorEffect hlegal hc]
    exact toNat_colorPixel s c
  case outside => exact readByte_colorEffect_outside (legal_color hlegal).2 ha

/-- Settles O33: without chroma the three channels are equal, 0 for luma 0 and 255 for luma 1. -/
theorem colorBlackAndWhite : Obligations.ColorBlackAndWhite := by
  intro s c hlegal hc hi hq
  have hpix : readRam (complete (colorEffect s)).mem .pix c = pixelOf (q (readRam s.mem .ybuf c)) 0 0 := by
    rw [complete_mem, readRam_colorEffect hlegal hc, colorPixel, hi, hq, q_zero]
  refine ⟨_, exec_eq .color s, fun hy => hpix.trans ?black, fun hy => hpix.trans ?white⟩
  case black => rw [hy, q_zero, pixelOf_black]
  case white => rw [hy, q_one, pixelOf_white]

end Sys2Proof.Machine
end

section
/-! SUPPORT. The facts that the statements of 44_line need beside the laws: the two sides of the row check, and what a write
of a configuration register leaves in `ROW`. -/

namespace Sys2Proof.Machine

/-! ### The row check (44_line R240, R241) -/

theorem lineEffect_at_ceiling {s : State} (h : s.cfg.rowCeil.toNat ≤ s.row.toNat) : lineEffect s = s.withRowLimit :=
  if_pos h

theorem lineEffect_below_ceiling {s : State} (h : s.row.toNat < s.cfg.rowCeil.toNat) :
    lineEffect s = (lineStages s).withRow (s.row + 1#16) :=
  if_neg (Nat.not_le.2 h)

theorem lineStages_cfg (s : State) : (lineStages s).cfg = s.cfg := by
  obtain ⟨m, o, f, r, b, h⟩ := lineStages_eq s
  rw [h, State.withMem_cfg, State.withSync_cfg]

/-- `ROW` below a 16-bit ceiling has a successor in 16 bits (44_line R243). -/
theorem toNat_succ_of_lt {row ceil : BitVec 16} (h : row.toNat < ceil.toNat) : (row + 1#16).toNat = row.toNat + 1 :=
  BitVec.toNat_add_of_lt (Nat.lt_of_le_of_lt (Nat.succ_le_of_lt h) ceil.isLt)

/-! ### What else can move `ROW` (44_line R243) -/

/-- Only the commands with `ROW` in their write set can change it (40_command_engine R135). -/
theorem writesRow_eq_false {i : Instr} (hline : i ≠ .line) (hframe : i ≠ .frameStart) : writesRow i = false := by
  simp [writesRow, hline, hframe]

theorem unlessBusy_row {s t : State} (h : t.row = s.row) : (unlessBusy s t).row = s.row := by
  cases hb : s.busy with
  | true => rw [unlessBusy_busy t hb, raiseErr_row]
  | false => rw [unlessBusy_idle t hb, h]

/-- No configuration register's write moves `ROW`, busy or not. -/
theorem locWrite_cfg_row (r : CfgReg) (w : Word) (s : State) : (locWrite (.cfg r) w s).row = s.row :=
  unlessBusy_row (State.withCfg_row s _)

/-! ### The statements of 44_line -/

/-- Settles O34: the row check fails, so the effect is `ROW_LIMIT` alone. -/
theorem lineAtTheCeilingOnlySetsRowLimit : Obligations.LineAtTheCeilingOnlySetsRowLimit := by
  intro s hceil
  rw [exec_eq, effectOf, lineEffect_at_ceiling hceil]
  rfl

/-- Settles O36: the two sides of the row check, then the write sets of the other commands, then the `ROW_CEIL` write. -/
theorem rowNeverPassesTheCeiling : Obligations.RowNeverPassesTheCeiling := by
  intro s
  refine ⟨⟨_, exec_eq .line s, ?line⟩, fun i hline hframe => ⟨_, exec_eq i s, ?other⟩, fun w => ?write⟩
  case line =>
    rw [effectOf, complete_row, complete_cfg, complete_rowLimit]
    rcases Nat.lt_or_ge s.row.toNat s.cfg.rowCeil.toNat with hbelow | hceil
    · have hnext := toNat_succ_of_lt hbelow
      rw [lineEffect_below_ceiling hbelow, State.withRow_row, State.withRow_cfg, lineStages_cfg]
      exact ⟨fun _ => hnext.trans_le hbelow, .inr ⟨hbelow, hnext⟩, fun h => absurd hbelow (Nat.not_lt.2 h)⟩
    · rw [lineEffect_at_ceiling hceil]
      exact ⟨id, .inl rfl, fun _ => ⟨rfl, rfl⟩⟩
  case other =>
    obtain ⟨hrow, -, -⟩ := effectOf_registers i s
    exact (complete_row _).trans (hrow (writesRow_eq_false hline hframe))
  case write =>
    have hl : locate 0x05C#17 = .cfg .rowCeil := by decide
    rw [hostTurn_write (by decide), hl, locWrite_cfg_row]

end Sys2Proof.Machine
end

section
/-! SUPPORT. The facts that the statements of 70_reset_and_hazards need beside the laws: the `CTRL` write, what a soft reset
of an idle block is, what the reset configuration allows, and which writes a pending command drops. -/

namespace Sys2Proof.Machine

/-! ### The `CTRL` write (10_state R25) -/

/-- Offset `0x00C` reaches `CTRL`; its bit 0 resets, busy or not. -/
theorem hostTurn_softReset {w : Word} (hbit : w.getLsbD 0 = true) (s : State) :
    hostTurn (busWrite 0x00C#17 w) s = softReset s :=
  (hostTurn_write (off := 0x00C#17) (by decide) w s).trans (if_pos hbit)

/-- Without bit 0 a `CTRL` write stores the two modes, unless a command is pending. -/
theorem hostTurn_modes {w : Word} (hbit : w.getLsbD 0 = false) (s : State) :
    hostTurn (busWrite 0x00C#17 w) s = unlessBusy s (s.withModes (w.getLsbD 1) (w.getLsbD 2)) :=
  (hostTurn_write (off := 0x00C#17) (by decide) w s).trans (if_neg (ne_true_of_eq_false hbit))

/-! ### Soft reset (R291, R293) -/

@[simp] theorem softReset_busy (s : State) : (softReset s).busy = false := rfl

@[simp] theorem softReset_cfg (s : State) : (softReset s).cfg = ConfigRegs.reset := rfl

/-- With nothing pending there is nothing to abort. -/
theorem abortedWords_idle {s : State} (hb : s.busy = false) : abortedWords s = [] := by
  simp only [abortedWords, hb]

/-- A soft reset of an idle block scrambles no word and takes no draw. -/
theorem softReset_idle {s : State} (hb : s.busy = false) :
    softReset s = { State.reset with mem := s.mem, draws := s.draws, agenda := s.agenda, rdata := s.rdata } := by
  rw [softReset, abortedWords_idle hb]
  rfl

/-- Soft reset is idempotent: the first one leaves the block idle. -/
theorem softReset_softReset (s : State) : softReset (softReset s) = softReset s :=
  softReset_idle (softReset_busy s)

/-! ### Legality under the reset configuration (R294) -/

/-- Every command but NOP and FRAME_START needs `L_LINE`, which the reset value of `LINE_LEN` fails
(40_command_engine R134). -/
theorem legal_of_lLine_false {s : State} (hline : lLine s.cfg = false) (i : Instr) :
    legal i s = decide (i = .nop ∨ i = .frameStart) := by
  cases i
  case nop => rfl
  case frameStart => rfl
  all_goals simp [legal, hline]

/-- Either reset leaves the block idle with the reset configuration. -/
theorem idle_and_cfg_of_reset {t : State}
    (ht : t = State.reset ∨ ∃ s w, w.getLsbD 0 = true ∧ t = hostTurn (busWrite 0x00C#17 w) s) :
    t.busy = false ∧ t.cfg = ConfigRegs.reset := by
  rcases ht with rfl | ⟨s, w, hbit, rfl⟩
  · exact ⟨rfl, rfl⟩
  · rw [hostTurn_softReset hbit]
    exact ⟨softReset_busy s, softReset_cfg s⟩

/-! ### Writes while a command is pending (R300) -/

/-- The locations whose write a pending command drops with `Err(BUSY)`, but for `CTRL`, where bit 0 decides. -/
theorem locWrite_dropped {l : Loc} {s : State} (w : Word) (hb : s.busy = true)
    (hl : l = .cmd ∨ l = .irqEn ∨ l = .offset ∨ (∃ r, l = .cfg r) ∨ ∃ r i, l = .ram r i) :
    locWrite l w s = raiseErr .busy s := by
  rcases hl with rfl | rfl | rfl | ⟨r, rfl⟩ | ⟨r, i, rfl⟩
  · exact cmdWrite_busy w hb
  all_goals exact unlessBusy_busy _ hb

/-- The read-only registers ignore every write (10_state R50). -/
theorem locWrite_readOnly {l : Loc} (hl : l = .id ∨ l = .lineMax ∨ l = .lutSize ∨ l = .row ∨ l = .syncPos) (w : Word)
    (s : State) : locWrite l w s = s := by
  rcases hl with rfl | rfl | rfl | rfl | rfl <;> rfl

/-- A bus write at a location's own offset is the write of that location (20_memory R73). -/
theorem hostTurn_write_offsetOf {l : Loc} {a : Nat} (ha : offsetOf l = some a)
    (hram : ∀ r i, l = .ram r i → i < r.words) (w : Word) (s : State) :
    hostTurn (busWrite (BitVec.ofNat 17 a) w) s = locWrite l w s := by
  obtain ⟨hloc, htoNat, h4⟩ := locate_offsetOf ha hram
  rw [hostTurn_write (by rw [htoNat]; exact h4), hloc]

/-! ### The statements of 70_reset_and_hazards -/

/-- Settles O3: an idle soft reset keeps the memory, and after any soft reset the block is idle. -/
theorem idleSoftResetKeepsRamsAndRepeats : Obligations.IdleSoftResetKeepsRamsAndRepeats := by
  intro s w w' hbit hbit'
  rw [hostTurn_softReset hbit, hostTurn_softReset hbit']
  exact ⟨fun hb => by rw [softReset_idle hb], softReset_softReset s⟩

/-- Settles O4: either reset leaves the block idle, so the `CMD` write checks legality, and `LINE_LEN` is 0. -/
theorem afterResetOnlyNopAndFrameStartAccepted : Obligations.AfterResetOnlyNopAndFrameStartAccepted := by
  intro t ht
  obtain ⟨hb, hcfg⟩ := idle_and_cfg_of_reset ht
  have hline : lLine t.cfg = false := by rw [hcfg]; rfl
  have hcmd : ∀ i, hostTurn (busWrite 0x018#17 (encode i)) t =
      if i = .nop ∨ i = .frameStart then accept i t else raiseErr .config t := fun i => by
    simp only [hostTurn_cmd, cmdWrite_encode i hb, legal_of_lLine_false hline, decide_eq_true_eq]
  refine ⟨?_, ?_, ?_, ?_, ?_, ?_, ?_, ?_, ?_, ?_, ?_, ?_, hcmd⟩
  all_goals
    rw [hcfg]
    rfl

/-- Settles O48: row by row of the table, each write taken to the location it reaches. -/
theorem writesWhilePending : Obligations.WritesWhilePending := by
  intro s w hb
  refine ⟨hostTurn_write (off := 0x010#17) (by decide) w s, fun hbit => hostTurn_softReset hbit s, fun hbit => ?ctrl,
    fun l off hoff hl => ?dropped, fun l off hoff hl => ?readOnly, fun off h4 hrange => ?reserved,
    fun off size hinvalid => hostTurn_invalid_write hinvalid w s⟩
  case ctrl => rw [hostTurn_modes hbit, unlessBusy_busy _ hb, raiseErr_eq_raised]
  case dropped =>
    have hram : ∀ r i, l = .ram r i → i < r.words := by
      rintro r i rfl
      simpa using hl
    rw [hostTurn_write_offsetOf hoff hram, locWrite_dropped w hb (by tauto), raiseErr_eq_raised]
  case readOnly =>
    have hram : ∀ r i, l = .ram r i → i < r.words := by
      rintro r i rfl
      simp at hl
    rw [hostTurn_write_offsetOf hoff hram, locWrite_readOnly hl]
  case reserved => rw [hostTurn_write h4, locate_reserved hrange, locWrite_reserved]

end Sys2Proof.Machine
end

section
/-! SUPPORT. The facts that the statements of 30_encoding need beside the laws: the words below 7 are the commands' words, and
the bytes of a word are decoded as the word. -/

namespace Sys2Proof.Machine

/-! ### Words (30_encoding R102, R103) -/

/-- The seven words below 7 are the words of the seven commands. -/
theorem exists_encode_of_lt {w : Word} (h : w.toNat < 7) : ∃ i, w = encode i := by
  obtain ⟨k, hk, rfl⟩ : ∃ k < 7, w = BitVec.ofNat 32 k := ⟨w.toNat, h, by rw [BitVec.ofNat_toNat, BitVec.setWidth_eq]⟩
  interval_cases k
  · exact ⟨.nop, rfl⟩
  · exact ⟨.frameStart, rfl⟩
  · exact ⟨.filter, rfl⟩
  · exact ⟨.sync, rfl⟩
  · exact ⟨.demod, rfl⟩
  · exact ⟨.color, rfl⟩
  · exact ⟨.line, rfl⟩

theorem decodeWord_eq_ok_iff {w : Word} {i : Instr} : decodeWord w = .ok i ↔ w = encode i := by
  refine ⟨fun h => ?_, fun h => h ▸ decodeWord_encode i⟩
  obtain ⟨j, rfl⟩ := exists_encode_of_lt (lt_of_decodeWord h)
  rw [decodeWord_encode] at h
  rw [Except.ok.inj h]

/-! ### Bytes (20_memory R77) -/

theorem bytesOfWord_wordOfBytes (b0 b1 b2 b3 : Byte) : bytesOfWord (wordOfBytes b0 b1 b2 b3) = [b0, b1, b2, b3] := by
  simp only [bytesOfWord]
  rw [byteOfWord_wordOfBytes _ _ _ _ 0 (by decide), byteOfWord_wordOfBytes _ _ _ _ 1 (by decide),
    byteOfWord_wordOfBytes _ _ _ _ 2 (by decide), byteOfWord_wordOfBytes _ _ _ _ 3 (by decide)]
  rfl

/-- A word's bytes are decoded as the word, and the bytes after them are handed on. -/
theorem decodeBytes_bytesOfWord (w : Word) (rest : List Byte) :
    decodeBytes (bytesOfWord w ++ rest) = (decodeWord w).map fun i => (i, rest) := by
  simp only [bytesOfWord, List.cons_append, List.nil_append, decodeBytes, wordOfBytes_byteOfWord]
  cases decodeWord w <;> rfl

/-- Only a list that begins with a word's bytes decodes: a shorter one does not. -/
theorem exists_word_of_decodeBytes {l : List Byte} {p : Instr × List Byte} (h : decodeBytes l = .ok p) :
    ∃ w rest, l = bytesOfWord w ++ rest := by
  match l with
  | b0 :: b1 :: b2 :: b3 :: rest => exact ⟨_, rest, by rw [bytesOfWord_wordOfBytes b0 b1 b2 b3]; rfl⟩
  | [] | [_] | [_, _] | [_, _, _] => cases h

/-! ### The statements of 30_encoding on the command word -/

/-- Settles O5: below 7 are exactly the commands' words, and four bytes are decoded as the word they lay out. -/
theorem decodeEncodeAgree : Obligations.DecodeEncodeAgree := by
  refine ⟨fun w i => decodeWord_eq_ok_iff, fun w => ⟨fun ⟨i, h⟩ => lt_of_decodeWord h, fun h => ?below⟩,
    fun i rest => ?decode, fun l i rest h => ?converse⟩
  case below =>
    obtain ⟨i, hi⟩ := exists_encode_of_lt h
    exact ⟨i, decodeWord_eq_ok_iff.2 hi⟩
  case decode =>
    rw [encodeBytes, decodeBytes_bytesOfWord, decodeWord_encode]
    rfl
  case converse =>
    obtain ⟨w, rest', rfl⟩ := exists_word_of_decodeBytes h
    rw [decodeBytes_bytesOfWord] at h
    cases hd : decodeWord w with
    | error e => rw [hd] at h; cases h
    | ok j =>
      rw [hd] at h
      cases h
      rw [decodeWord_eq_ok_iff.1 hd, encodeBytes]

/-- Settles O6: the five words are evaluated. -/
theorem tableWordsDecode : Obligations.TableWordsDecode := by
  unfold Obligations.TableWordsDecode
  decide

end Sys2Proof.Machine
end

section
/-! SUPPORT. The invariant `StateOk`: what each host transaction and each completion step keeps of it, and the runs that it
makes safe. -/

namespace Sys2Proof.Machine

/-! ### What the parts of the invariant read -/

/-- Legality reads the configuration and `OFFSET` only (40_command_engine R134). -/
theorem legal_congr {s t : State} (i : Instr) (hcfg : t.cfg = s.cfg) (hoff : t.offset = s.offset) :
    legal i t = legal i s := by
  cases i <;> simp only [legal, lOff, hcfg, hoff]

/-- The engine of `t` is good where it is the engine of `s` and stands on the same operands. -/
theorem EngineOk.congr {s t : State} (h : EngineOk s) (hbusy : t.busy = s.busy) (hpend : t.pending = s.pending)
    (hcfg : t.cfg = s.cfg) (hoff : t.offset = s.offset) : EngineOk t := by
  intro hb
  obtain ⟨i, hi, hlegal⟩ := h (hbusy ▸ hb)
  exact ⟨i, hpend.trans hi, (legal_congr i hcfg hoff).trans hlegal⟩

theorem engineOk_idle {s : State} (h : s.busy = false) : EngineOk s := fun hb => by
  rw [h] at hb
  cases hb

theorem ErrorOk.congr {s t : State} (h : ErrorOk s) (herr : t.err = s.err) (hcode : t.errCode = s.errCode) :
    ErrorOk t := by
  unfold ErrorOk
  rw [herr, hcode]
  exact h

theorem SyncOk.congr {s t : State} (h : SyncOk s) (hfall : t.fallIdx = s.fallIdx) (hrise : t.riseIdx = s.riseIdx)
    (hmiss : t.alignMiss = s.alignMiss) : SyncOk t := by
  unfold SyncOk
  rw [hfall, hrise, hmiss]
  exact h

/-- The turns to come are no part of the invariant. -/
theorem StateOk.withAgenda {s : State} (h : StateOk s) (l : List Turn) : StateOk (s.withAgenda l) := by
  obtain ⟨hmem, heng, herr, hsync⟩ := h
  exact ⟨hmem, heng.congr rfl rfl rfl rfl, herr, hsync⟩

/-- Settles O54: the reset value of each field. -/
theorem resetIsGood : Obligations.ResetIsGood :=
  ⟨wf_nil, engineOk_idle rfl, by unfold ErrorOk; decide, by unfold SyncOk; decide⟩

/-! ### The host's turn keeps the invariant -/

theorem raiseErr_stateOk {s : State} {c : ErrCode} (hc : c ≠ .none) (h : StateOk s) : StateOk (raiseErr c s) := by
  obtain ⟨hmem, heng, herr, hsync⟩ := h
  refine ⟨hmem, heng.congr rfl rfl rfl rfl, ?_, hsync⟩
  unfold ErrorOk at herr ⊢
  rw [raiseErr_err, raiseErr_errCode]
  cases he : s.err with
  | true => simpa [he] using herr
  | false => simpa using hc

theorem clearStatus_stateOk {s : State} (w : Word) (h : StateOk s) : StateOk (clearStatus w s) := by
  obtain ⟨hmem, heng, herr, hsync⟩ := h
  refine ⟨hmem, heng.congr rfl rfl rfl rfl, ?_, hsync⟩
  unfold ErrorOk at herr ⊢
  rw [clearStatus_err, clearStatus_errCode]
  cases w.getLsbD 2 with
  | true => simp
  | false => simpa using herr

/-- A soft reset leaves what power-on leaves, but for the memory it scrambles in its canonical form. -/
theorem softReset_stateOk {s : State} (h : StateOk s) : StateOk (softReset s) := by
  obtain ⟨-, -, herr, hsync⟩ := resetIsGood
  exact ⟨scramble_wf h.1 _ _, engineOk_idle rfl, herr, hsync⟩

/-- Only a legal command is accepted (40_command_engine R130). -/
theorem accept_stateOk {s : State} {i : Instr} (hlegal : legal i s = true) (h : StateOk s) : StateOk (accept i s) := by
  obtain ⟨hmem, -, herr, hsync⟩ := h
  exact ⟨hmem, fun _ => ⟨i, rfl, (legal_congr i rfl rfl).trans hlegal⟩, herr, hsync⟩

theorem locWrite_stateOk {s : State} (l : Loc) (w : Word) (h : StateOk s) : StateOk (locWrite l w s) := by
  have ⟨hmem, _, herr, hsync⟩ := h
  rcases locWrite_cases l w s with hw | ⟨c, hc, hw⟩ | ⟨-, hw⟩ | ⟨-, -, hw⟩ | ⟨i, -, hlegal, hw⟩ |
    ⟨hb, ⟨a, b, hw⟩ | ⟨a, b, -, hw⟩ | ⟨o, hw⟩ | ⟨c, hw⟩ | ⟨r, i, hw⟩⟩ <;> rw [hw]
  · exact h
  · exact raiseErr_stateOk hc h
  · exact clearStatus_stateOk w h
  · exact softReset_stateOk h
  · exact accept_stateOk hlegal h
  · exact ⟨hmem, engineOk_idle hb, herr, hsync⟩
  · exact ⟨hmem, engineOk_idle hb, herr, hsync⟩
  · exact ⟨hmem, engineOk_idle hb, herr, hsync⟩
  · exact ⟨hmem, engineOk_idle hb, herr, hsync⟩
  · exact ⟨writeRam_wf hmem r i w, engineOk_idle hb, herr, hsync⟩

theorem hostTurn_stateOk {s : State} (t : Transaction) (h : StateOk s) : StateOk (hostTurn t s) := by
  have raised : StateOk (raiseErr .access s) := raiseErr_stateOk (by decide) h
  rcases hostTurn_cases t s with ⟨_, _, -, l, ht⟩ | ⟨_, _, -, ht⟩ | ⟨_, _, _, -, ht⟩ | ⟨off, w, -, -, ht⟩ <;> rw [ht]
  · obtain ⟨hmem, heng, herr, hsync⟩ := h
    exact ⟨hmem, heng.congr rfl rfl rfl rfl, herr, hsync⟩
  · obtain ⟨hmem, heng, herr, hsync⟩ := raised
    exact ⟨hmem, heng.congr rfl rfl rfl rfl, herr, hsync⟩
  · exact raised
  · exact locWrite_stateOk _ w h

/-! ### SYNC leaves a meaningful `SYNC_POS` (41_reconstructor R151, R152) -/

/-- Either scan answers one of the falls. -/
theorem mem_falls_of_fallWindow {s : State} {f : Nat} (h : fallWindow s = some f) : f ∈ falls s := by
  unfold fallWindow at h
  split_ifs at h
  · exact List.max?_mem h
  · exact List.min?_mem h

theorem syncEffect_syncOk {s : State} (hline : lLine s.cfg = true) (hwin : lWin s.cfg = true) :
    SyncOk (syncEffect s) := by
  have index : ∀ j < nwin s.cfg, (BitVec.ofNat 16 j).toNat = j ∧ j < Config.lineMax := fun j hj =>
    ⟨toNat_windowIndex hline (nwin_eq_windows hwin ▸ hj), hj.trans_le (nwin_le hline hwin)⟩
  cases hf : fallWindow s with
  | none =>
    rw [syncEffect_no_fall hf]
    exact ⟨.inl rfl, .inl rfl, fun _ => rfl⟩
  | some f =>
    obtain ⟨hflt, -⟩ := mem_falls.1 (mem_falls_of_fallWindow hf)
    obtain ⟨hfall, hfmax⟩ := index f hflt
    have fallOk : (BitVec.ofNat 16 f).toNat < Config.lineMax := hfall.trans_lt hfmax
    cases hr : (rises s f).min? with
    | none =>
      rw [syncEffect_no_rise hf hr]
      exact ⟨.inr fallOk, .inl rfl, fun _ => rfl⟩
    | some r =>
      obtain ⟨hrlt, hlater, -⟩ := mem_rises.1 (List.min?_mem hr)
      obtain ⟨hrise, hrmax⟩ := index r hrlt
      rw [syncEffect_found hf hr]
      refine ⟨.inr fallOk, .inr ⟨?_, hrise.trans_lt hrmax⟩, nofun⟩
      exact (hfall.trans_lt hlater).trans_eq hrise.symm

theorem legal_line {s : State} (h : legal .line s = true) :
    lLine s.cfg = true ∧ lWin s.cfg = true ∧ lChunk s.cfg = true ∧ lScale s.cfg = true ∧ lAmp s.cfg = true ∧
      lY s.cfg = true ∧ lIq s.cfg = true := by
  simpa [legal, and_assoc] using h

/-- Every legal command leaves a meaningful `SYNC_POS`: the two that write it end in the result of a SYNC stage. -/
theorem effectOf_syncOk {s : State} {i : Instr} (hlegal : legal i s = true) (h : SyncOk s) : SyncOk (effectOf i s) := by
  have untouched : writesSync i = false → SyncOk (effectOf i s) := fun hw => by
    obtain ⟨-, hregs, -⟩ := effectOf_registers i s
    obtain ⟨-, hfall, hrise, hmiss⟩ := hregs hw
    exact h.congr hfall hrise hmiss
  cases i
  case sync =>
    obtain ⟨hline, hwin⟩ := legal_sync hlegal
    exact syncEffect_syncOk hline hwin
  case line =>
    obtain ⟨hline, hwin, -⟩ := legal_line hlegal
    rcases Nat.lt_or_ge s.row.toNat s.cfg.rowCeil.toNat with hbelow | hceil
    · obtain ⟨m, hm⟩ := lineStages_after_sync s
      rw [effectOf, lineEffect_below_ceiling hbelow, hm]
      exact (syncEffect_syncOk (s := filterEffect s) hline hwin).congr rfl rfl rfl
    · rw [effectOf, lineEffect_at_ceiling hceil]
      exact h.congr rfl rfl rfl
  all_goals exact untouched rfl

/-- The completion step of a legal command keeps the invariant. -/
theorem complete_effectOf_stateOk {s : State} {i : Instr} (hlegal : legal i s = true) (h : StateOk s) :
    StateOk (complete (effectOf i s)) := by
  obtain ⟨hmem, -, herr, hsync⟩ := h
  refine ⟨effectOf_wf i hmem, engineOk_idle rfl, ?_, effectOf_syncOk hlegal hsync⟩
  rw [effectOf_frame]
  exact herr

/-! ### Steps and runs -/

/-- A step stops nowhere but at an engine that is busy with nothing pending. -/
theorem step_total {s : State} (h : EngineOk s) : ∃ t, step s = .next t := by
  have engine : ∀ l, ∃ t, engineTurn (s.withAgenda l) = .next t := fun l => by
    cases hb : s.busy with
    | false => exact ⟨_, engineTurn_idle hb⟩
    | true =>
      obtain ⟨i, hi, -⟩ := h hb
      exact ⟨_, (engineTurn_pending (s := s.withAgenda l) hb hi).trans (exec_eq i _)⟩
  match ha : s.agenda with
  | [] => rw [step_nil ha]; exact engine s.agenda
  | .host tr :: rest => exact ⟨_, step_host ha⟩
  | .engine :: rest => rw [step_engine ha]; exact engine rest

theorem step_stateOk {s t : State} (h : StateOk s) (hstep : step s = .next t) : StateOk t := by
  rcases step_cases hstep with ⟨tr, rest, -, rfl⟩ | ⟨i, l, hb, hp, rfl⟩ | ⟨l, -, rfl⟩
  · exact hostTurn_stateOk tr (h.withAgenda rest)
  · obtain ⟨j, hj, hlegal⟩ := h.2.1 hb
    obtain rfl : i = j := Option.some.inj (hp.symm.trans hj)
    exact complete_effectOf_stateOk ((legal_congr i rfl rfl).trans hlegal) (h.withAgenda l)
  · exact h.withAgenda l

/-- Settles O55: the step is answered because the engine is good, and each kind of step keeps the invariant. -/
theorem everyStepKeepsStateOk : Obligations.EveryStepKeepsStateOk := fun s h => by
  obtain ⟨t, ht⟩ := step_total h.2.1
  exact ⟨t, ht, step_stateOk h ht⟩

/-- From a good state no run stops. -/
theorem safeRun_of_stateOk (k : Nat) {s : State} (h : StateOk s) : SafeRun k s := by
  induction k generalizing s with
  | zero => exact ⟨s, rfl⟩
  | succ k ih =>
    obtain ⟨t, hstep, ht⟩ := everyStepKeepsStateOk s h
    obtain ⟨u, hu⟩ := ih ht
    exact ⟨u, (run_succ k hstep).trans hu⟩

/-- Settles O56: reset is good, whatever the agenda. -/
theorem everyScheduleRunsFromReset : Obligations.EveryScheduleRunsFromReset := fun k l =>
  safeRun_of_stateOk k (resetIsGood.withAgenda l)

end Sys2Proof.Machine
end

section
/-! SUPPORT. The facts about the engine that the statements on delays, flags, write sets and turns need beside the laws: what
no effect reads, what the abort of a command draws, and the turns of the script line `run`. -/

namespace Sys2Proof.Machine

/-! ### What no effect reads (40_command_engine R136) -/

/-- `s` with the fields of `u` that no effect reads: the flags, the enables, the engine, and the model's own fields. -/
def State.withUnreadOf (s u : State) : State :=
  { s with
    done := u.done, err := u.err, errCode := u.errCode, alignMiss := u.alignMiss, rowLimit := u.rowLimit
    doneIe := u.doneIe, errIe := u.errIe, busy := u.busy, pending := u.pending
    agenda := u.agenda, rdata := u.rdata, draws := u.draws }

/-- `s` with the `ALIGN_MISS` of `u`: the one unread field that a stage writes. -/
def State.withMissOf (s u : State) : State := { s with alignMiss := u.alignMiss }

/-- A SYNC stage started with other unread fields does the same, and writes the same `ALIGN_MISS`. -/
theorem syncEffect_withUnreadOf (s u : State) :
    syncEffect (s.withUnreadOf u) = (syncEffect s).withUnreadOf (u.withMissOf (syncEffect s)) := by
  have hfall : fallWindow (s.withUnreadOf u) = fallWindow s := rfl
  have hrises : ∀ f, rises (s.withUnreadOf u) f = rises s f := fun _ => rfl
  unfold syncEffect
  rw [hfall]
  cases fallWindow s with
  | none => rfl
  | some f =>
    simp only [hrises]
    cases (rises s f).min? <;> rfl

theorem demodEffect_withUnreadOf (s u : State) : demodEffect (s.withUnreadOf u) = (demodEffect s).withUnreadOf u := rfl

theorem colorEffect_withUnreadOf (s u : State) : colorEffect (s.withUnreadOf u) = (colorEffect s).withUnreadOf u := rfl

theorem lineStages_withUnreadOf (s u : State) :
    lineStages (s.withUnreadOf u) = (lineStages s).withUnreadOf (u.withMissOf (lineStages s)) := by
  have hfilter : filterEffect (s.withUnreadOf u) = (filterEffect s).withUnreadOf u := rfl
  have hmiss : u.withMissOf (lineStages s) = u.withMissOf (syncEffect (filterEffect s)) := by
    obtain ⟨m, hm⟩ := lineStages_after_sync s
    rw [hm]
    rfl
  rw [hmiss]
  simp only [lineStages, hfilter, syncEffect_withUnreadOf, demodEffect_withUnreadOf, colorEffect_withUnreadOf]

/-- The command with this state writes `ALIGN_MISS`: it has a SYNC stage, and is no LINE at the ceiling (44_line R241). -/
def RunsSync (i : Instr) (s : State) : Prop := i = .sync ∨ (i = .line ∧ s.row.toNat < s.cfg.rowCeil.toNat)

/-- A command started with other unread fields does the same to every field it reads, and to `ALIGN_MISS` where it has a
SYNC stage or `ALIGN_MISS` was the same. -/
theorem effectOf_withUnreadOf (i : Instr) (s u : State) :
    ∃ v, effectOf i (s.withUnreadOf u) = (effectOf i s).withUnreadOf v ∧
      (RunsSync i s ∨ u.alignMiss = s.alignMiss → v.alignMiss = (effectOf i s).alignMiss) := by
  cases i
  case sync => exact ⟨_, syncEffect_withUnreadOf s u, fun _ => rfl⟩
  case line =>
    rcases Nat.lt_or_ge s.row.toNat s.cfg.rowCeil.toNat with hbelow | hceil
    · have hother : (s.withUnreadOf u).row.toNat < (s.withUnreadOf u).cfg.rowCeil.toNat := hbelow
      refine ⟨u.withMissOf (lineStages s), ?_, fun _ => ?_⟩
      · rw [effectOf, lineEffect_below_ceiling hother, lineEffect_below_ceiling hbelow, lineStages_withUnreadOf]
        rfl
      · rw [effectOf, lineEffect_below_ceiling hbelow]
        rfl
    · have hother : (s.withUnreadOf u).cfg.rowCeil.toNat ≤ (s.withUnreadOf u).row.toNat := hceil
      refine ⟨u.withRowLimit, ?_, fun h => ?_⟩
      · rw [effectOf, lineEffect_at_ceiling hother, lineEffect_at_ceiling hceil]
        rfl
      · rw [effectOf, lineEffect_at_ceiling hceil]
        rcases h with (hi | ⟨-, hbelow⟩) | hmiss
        · cases hi
        · exact absurd hbelow (Nat.not_lt.2 hceil)
        · exact hmiss
  all_goals
    refine ⟨u, rfl, fun h => ?_⟩
    rcases h with (hi | ⟨hi, -⟩) | hmiss
    · cases hi
    · cases hi
    · exact hmiss

/-- Settles O16: the flags and the enables are among the fields that no effect reads. -/
theorem effectsReadNoStatusFlag : Obligations.EffectsReadNoStatusFlag := by
  intro i s d e a l di ei c
  obtain ⟨v, hv, hmiss⟩ := effectOf_withUnreadOf i s
    { s with done := d, err := e, alignMiss := a, rowLimit := l, errCode := c, doneIe := di, errIe := ei }
  refine ⟨_, _, exec_eq i s, (exec_eq i _).trans (congrArg (Host.Outcome.next ∘ complete) hv), rfl, rfl, rfl, rfl, rfl,
    fun h => hmiss (.inl h)⟩

/-! ### Completion after a delay (40_command_engine R132, R133) -/

/-- The engine's turn at the head of the agenda, with a command pending, is the end of the run. -/
theorem run_engine {s : State} {i : Instr} (hb : s.busy = true) (hp : s.pending = some i) (rest : List Turn) (k : Nat) :
    Sys2Proof.core.run (k + 1) (s.withAgenda (.engine :: rest)) =
      Sys2Proof.core.run k (complete (effectOf i (s.withAgenda rest))) := by
  refine run_succ k ?_
  rw [step_engine rfl]
  exact (engineTurn_pending (s := s.withAgenda rest) hb hp).trans (exec_eq i _)

/-- Settles O12: the delay changes reports only (`afterHost_pending`), and the completion reads none of them. -/
theorem resultsIndependentOfDelay : Obligations.ResultsIndependentOfDelay := by
  intro s i ts hb hp hreset
  have hrun := run_hosts ts 1 [.engine] s
  have hdelay := afterHost_pending hb hreset
  generalize afterHost ts s = u at hrun hdelay
  have hunread : u.withAgenda [] = s.withUnreadOf (u.withAgenda []) := by rw [hdelay]; rfl
  have hmissKept : u.alignMiss = s.alignMiss := by rw [hdelay]; rfl
  have hlate : Sys2Proof.core.run 1 (u.withAgenda [.engine]) = .next (complete (effectOf i (u.withAgenda []))) :=
    run_engine (by rw [hdelay]; exact hb) (by rw [hdelay]; exact hp) [] 0
  obtain ⟨v, hv, hmiss⟩ := effectOf_withUnreadOf i s (u.withAgenda [])
  rw [← hunread] at hv
  rw [hv] at hlate
  have hcfg : (effectOf i s).cfg = s.cfg := by rw [effectOf_frame]
  exact ⟨_, _, exec_eq i s, hrun.trans hlate, rfl, rfl, rfl, rfl, rfl, hmiss (.inr hmissKept), rfl, rfl, rfl⟩

/-! ### What a host transaction does to `DONE` and to the error (20_memory R83, 60_exceptions R262) -/

/-- No location write sets `DONE`. -/
theorem locWrite_done {s : State} (l : Loc) (w : Word) (h : s.done = false) : (locWrite l w s).done = false := by
  rcases locWrite_cases l w s with hw | ⟨c, -, hw⟩ | ⟨-, hw⟩ | ⟨-, -, hw⟩ | ⟨i, -, -, hw⟩ |
    ⟨-, ⟨a, b, hw⟩ | ⟨a, b, -, hw⟩ | ⟨o, hw⟩ | ⟨c, hw⟩ | ⟨r, i, hw⟩⟩ <;> rw [hw]
  case inr.inr.inl => rw [clearStatus_done, h, Bool.false_and]
  case inr.inr.inr.inl => rfl
  all_goals exact h

theorem hostTurn_done {s : State} (t : Transaction) (h : s.done = false) : (hostTurn t s).done = false := by
  rcases hostTurn_cases t s with ⟨_, _, -, l, ht⟩ | ⟨_, _, -, ht⟩ | ⟨_, _, _, -, ht⟩ | ⟨off, w, -, -, ht⟩ <;> rw [ht]
  · exact h
  · exact h
  · exact h
  · exact locWrite_done _ w h

theorem afterHost_done {s : State} (ts : List Transaction) (h : s.done = false) : (afterHost ts s).done = false := by
  induction ts generalizing s with
  | nil => exact h
  | cons t ts ih => exact ih (hostTurn_done t h)

/-- Settles O13: no host transaction sets `DONE`, with a command pending or without. -/
theorem doneOnlyAfterCompletion : Obligations.DoneOnlyAfterCompletion := fun _ ts _ hdone => afterHost_done ts hdone

/-- Without bit 2 a `STATUS` write leaves the error. -/
theorem clearStatus_keeps_error {w : Word} (hw : w.getLsbD 2 = false) {s : State} (h : s.err = true) :
    (clearStatus w s).err = true ∧ (clearStatus w s).errCode = s.errCode := by
  rw [clearStatus_err, clearStatus_errCode, hw, h]
  exact ⟨rfl, rfl⟩

/-- A later error leaves the first one's code (60_exceptions R262). -/
theorem raiseErr_keeps_error {s : State} (c : ErrCode) (h : s.err = true) :
    (raiseErr c s).err = true ∧ (raiseErr c s).errCode = s.errCode := by
  rw [raiseErr_err, raiseErr_errCode, h]
  exact ⟨rfl, rfl⟩

theorem locWrite_keeps_error {s : State} {l : Loc} {w : Word} (h : s.err = true)
    (hclear : l = .status → w.getLsbD 2 = false) (hreset : ¬ (l = .ctrl ∧ w.getLsbD 0 = true)) :
    (locWrite l w s).err = true ∧ (locWrite l w s).errCode = s.errCode := by
  rcases locWrite_cases l w s with hw | ⟨c, -, hw⟩ | ⟨hl, hw⟩ | ⟨hl, hbit, -⟩ | ⟨i, -, -, hw⟩ |
    ⟨-, ⟨a, b, hw⟩ | ⟨a, b, -, hw⟩ | ⟨o, hw⟩ | ⟨c, hw⟩ | ⟨r, i, hw⟩⟩
  case inr.inl => rw [hw]; exact raiseErr_keeps_error c h
  case inr.inr.inl => rw [hw]; exact clearStatus_keeps_error (hclear hl) h
  case inr.inr.inr.inl => exact absurd ⟨hl, hbit⟩ hreset
  all_goals rw [hw]; exact ⟨h, rfl⟩

/-- Settles O52: only a `STATUS` write with bit 2 and a soft reset touch an error that stands. -/
theorem firstErrorCodeIsKept : Obligations.FirstErrorCodeIsKept := by
  intro s t herr hreset hclear
  rcases hostTurn_cases t s with ⟨_, _, -, l, ht⟩ | ⟨_, _, -, ht⟩ | ⟨_, _, _, -, ht⟩ | ⟨off, w, rfl, h4, ht⟩ <;> rw [ht]
  · exact ⟨herr, rfl⟩
  · exact raiseErr_keeps_error _ herr
  · exact raiseErr_keeps_error _ herr
  · refine locWrite_keeps_error herr (fun hl => hclear w ?_) fun ⟨hl, hbit⟩ => ?_
    · rw [eq_of_locate_eq h4 hl rfl]
    · have hsoft : isSoftReset (busWrite off w) = true := by rw [eq_of_locate_eq h4 hl rfl]; exact hbit
      rw [hreset] at hsoft
      cases hsoft

/-! ### Write sets (40_command_engine R135) -/

/-- A RAM word is in a write set when one of its rows reaches it. -/
theorem inRamWriteSet_iff {i : Instr} {c : ConfigRegs} {r : Ram} {k : Nat} :
    inRamWriteSet i c r k = true ↔ ∃ n, (r, n) ∈ ramWriteSet i c ∧ k < n :=
  mem_ramWords_writeSet.symm.trans mem_ramWords

/-- No command writes `RAW` or the table (40_command_engine R135). -/
theorem ne_raw_of_inRamWriteSet {i : Instr} {c : ConfigRegs} {r : Ram} {k : Nat} (h : inRamWriteSet i c r k = true) :
    r ≠ .raw := by
  obtain ⟨n, hn, -⟩ := inRamWriteSet_iff.1 h
  rintro rfl
  cases i <;> simp [ramWriteSet] at hn

/-- Settles O14: row by row of the table. -/
theorem writeSetTable : Obligations.WriteSetTable := by
  intro c r k
  refine ⟨rfl, rfl, rfl, ?filter, ?demod, ?color, ?line, ?row, ?sync, ?limit⟩
  case row => intro i; simp [writesRow]
  case sync => intro i; simp [writesSync]
  case limit => intro i; simp [writesRowLimit]
  all_goals
    rw [inRamWriteSet_iff]
    simp [ramWriteSet, or_and_right, exists_or, and_assoc]

/-- Settles O15: the frame of the effect, register by register and byte by byte. -/
theorem effectsCompleteAndStayInWriteSet : Obligations.EffectsCompleteAndStayInWriteSet := by
  intro i s
  obtain ⟨hrow, hsync, hlimit⟩ := effectOf_registers i s
  exact ⟨_, exec_eq i s, congrArg complete (effectOf_frame i s), hrow, hsync, hlimit, fun a ha => effectOf_outside i s ha⟩

/-! ### The abort of a command (70_reset_and_hazards R292) -/

/-- The aborted words are the write set of the pending command. -/
theorem abortedWords_pending {s : State} {i : Instr} (hb : s.busy = true) (hp : s.pending = some i) :
    abortedWords s = ramWords (ramWriteSet i s.cfg) := by
  simp only [abortedWords, hb, hp]

theorem mem_abortedWords {s : State} {r : Ram} {k : Nat} :
    (r, k) ∈ abortedWords s ↔ ∃ i, s.busy = true ∧ s.pending = some i ∧ inRamWriteSet i s.cfg r k = true := by
  cases hb : s.busy with
  | false => simp [abortedWords_idle hb]
  | true =>
    cases hp : s.pending with
    | none => simp [abortedWords, hp]
    | some i => simp [abortedWords_pending hb hp, mem_ramWords_writeSet]

/-- The draw that an aborted RAM word takes: its place in the write set, counted on from the draws already taken. -/
def abortDraw (s : State) (r : Ram) (k : Nat) : Nat := s.draws + (abortedWords s).idxOf (r, k)

theorem abortDraw_lt {s : State} {r : Ram} {k : Nat} (h : (r, k) ∈ abortedWords s) :
    abortDraw s r k < s.draws + (abortedWords s).length :=
  Nat.add_lt_add_left (List.idxOf_lt_length_of_mem h) _

theorem abortDraw_injective {s : State} {r r' : Ram} {k k' : Nat} (h : (r, k) ∈ abortedWords s)
    (he : abortDraw s r k = abortDraw s r' k') : r = r' ∧ k = k' :=
  Prod.mk.inj ((List.idxOf_inj h).1 (Nat.add_left_cancel he))

/-- After the abort each aborted word holds its draw. -/
theorem readRam_softReset {s : State} {i : Instr} {r : Ram} {k : Nat} (hb : s.busy = true) (hp : s.pending = some i)
    (hin : inRamWriteSet i s.cfg r k = true) (hk : k < r.words) :
    readRam (softReset s).mem r k = Config.freeWord (abortDraw s r k) := by
  have hmem : (r, k) ∈ abortedWords s := mem_abortedWords.2 ⟨i, hb, hp, hin⟩
  have hnodup : (abortedWords s).Nodup := by
    rw [abortedWords_pending hb hp]
    exact nodup_writeSet i s.cfg
  have hread := readRam_scramble s.mem s.draws _ hnodup (List.getElem?_idxOf hmem) hk
  rw [keptBits, if_neg (ne_raw_of_inRamWriteSet hin)] at hread
  exact hread

/-- Settles O2: the reset is `softReset`, and an aborted word's draw is its place in the write set. -/
theorem softResetRestoresRegistersAndScramblesAborted : Obligations.SoftResetRestoresRegistersAndScramblesAborted := by
  intro s w hbit
  refine ⟨_, _, hostTurn_softReset hbit s, fun a ha => ?outside, fun i hb hp =>
    ⟨abortDraw s, fun r k hin hk => ⟨Nat.le_add_right _ _, ?below, readRam_softReset hb hp hin hk⟩,
      fun r k r' k' hin _ he => abortDraw_injective (mem_abortedWords.2 ⟨i, hb, hp, hin⟩) he⟩⟩
  case outside =>
    refine readByte_scramble_outside s.mem s.draws _ fun (r, k) hmem => ?_
    obtain ⟨i, hb, hp, hin⟩ := mem_abortedWords.1 hmem
    exact ha i hb hp r k hin
  case below => exact abortDraw_lt (mem_abortedWords.2 ⟨i, hb, hp, hin⟩)

/-! ### Single turns -/

/-- Settles O9: the head of the agenda, or the engine where there is none. -/
theorem stepTakesTheNextTurn : Obligations.StepTakesTheNextTurn := by
  intro s rest
  refine ⟨fun t ha => step_host ha, fun i ha hb hp => ?engine, fun i ha hb hp => ?empty, fun ha hb => ?idle,
    fun ha hb => ?idleEmpty⟩
  case engine => exact (step_engine ha).trans (engineTurn_pending (s := s.withAgenda rest) hb hp)
  case empty => exact (step_nil ha).trans (engineTurn_pending hb hp)
  case idle => exact (step_engine ha).trans (engineTurn_idle (s := s.withAgenda rest) hb)
  case idleEmpty => exact (step_nil ha).trans (engineTurn_idle hb)

/-- A command's own word is placed as acceptance leaves it (log entry 2). -/
theorem withFetchWord_encode (s : State) (i : Instr) : s.withFetchWord 32 (encode i).toNat = placePending i s := by
  have hword : tableWord 32 (encode i).toNat = some (encode i) := by
    rw [tableWord, if_pos le_rfl, Nat.mod_eq_of_lt (encode i).isLt, BitVec.ofNat_toNat, BitVec.setWidth_eq]
  simp only [State.withFetchWord, hword, placeWord, decodeWord_encode]

/-- With an empty agenda it is the engine's turn anyway; before other turns the engine's is put first. -/
theorem step_placePending (i : Instr) (s : State) : step (placePending i s) = exec i (accept i s) := by
  have hpending : engineTurn (accept i s) = exec i (accept i s) := engineTurn_pending rfl rfl
  cases ha : s.agenda with
  | nil =>
    have hplaced : placePending i s = accept i s := by
      rw [placePending, ha]
      show (accept i s).withAgenda [] = accept i s
      rw [← ha]
      rfl
    rw [hplaced]
    exact (step_nil (s := accept i s) ha).trans hpending
  | cons t rest =>
    have hplaced : (placePending i s).agenda = .engine :: s.agenda := by
      simp only [placePending, ha, State.withAgenda_agenda]
    rw [step_engine hplaced]
    exact hpending

/-- Settles O10: the command's own word is placed, and the step runs it. -/
theorem stepRunsThePlacedCommand : Obligations.StepRunsThePlacedCommand := fun s i => by
  rw [withFetchWord_encode, step_placePending]
  rfl

/-- Settles O17: the effect of NOP is no effect. -/
theorem nopOnlyCompletes : Obligations.NopOnlyCompletes := fun s => exec_eq .nop s

/-- Settles O18: the effect of FRAME_START is one register. -/
theorem frameStartClearsRow : Obligations.FrameStartClearsRow := fun s => exec_eq .frameStart s

end Sys2Proof.Machine
end

section
/-! SUPPORT. The facts that the statements on the bus and on the register words need beside the laws: the numbers that the
register words spell, the bits of `STATUS`, and what each offset of the aperture reaches. -/

namespace Sys2Proof.Machine

/-! ### Register words as numbers (10_state R25 to R32) -/

/-- A field below a word moves the word up by the field's width. -/
theorem toNat_append_field {n m : Nat} (x : BitVec n) (y : BitVec m) :
    (x ++ y).toNat = x.toNat * 2 ^ m + y.toNat := by
  rw [BitVec.toNat_append, ← Nat.shiftLeft_add_eq_or_of_lt y.isLt, Nat.shiftLeft_eq]

theorem toNat_statusBits (busy done err miss limit : Bool) (code : BitVec 4) :
    (statusBits busy done err miss limit code).toNat =
      busy.toNat + 2 * done.toNat + 4 * err.toNat + 8 * miss.toNat + 16 * limit.toNat + 256 * code.toNat := by
  simp only [statusBits, toNat_append_field, BitVec.toNat_ofBool, BitVec.toNat_ofNat]
  ring

theorem toNat_ctrlWord (s : State) : (ctrlWord s).toNat = 2 * s.scanMode.toNat + 4 * s.pMode.toNat := by
  simp only [ctrlWord, toNat_append_field, BitVec.toNat_ofBool, BitVec.toNat_ofNat]
  ring

theorem toNat_irqEnWord (s : State) : (irqEnWord s).toNat = s.doneIe.toNat + 2 * s.errIe.toNat := by
  simp only [irqEnWord, toNat_append_field, BitVec.toNat_ofBool, BitVec.toNat_ofNat]
  ring

theorem toNat_syncPosWord (s : State) : (syncPosWord s).toNat = s.riseIdx.toNat * 2 ^ 16 + s.fallIdx.toNat :=
  toNat_append_field _ _

/-- `ROW` and `OFFSET` read their 16 bits with zeros above (10_state R30, R31). -/
theorem toNat_setWidth_word (x : BitVec 16) : (x.setWidth 32).toNat = x.toNat :=
  BitVec.toNat_setWidth_of_le (by decide)

theorem code_lt (c : ErrCode) : c.code.toNat < 5 := by
  cases c <;> decide

/-- Settles O46: each flag is a one-bit field above the one before it. -/
theorem statusWordLayout : Obligations.StatusWordLayout := fun s =>
  ⟨toNat_statusBits _ _ _ _ _ _, code_lt s.errCode, rfl, rfl, rfl, rfl, rfl⟩

/-- Settles O1: the reset value of each register, evaluated. -/
theorem powerOnRegisterValues : Obligations.PowerOnRegisterValues := by
  refine ⟨?_, rfl, rfl, rfl⟩
  decide

/-! ### The bits of `STATUS` (10_state R26) -/

/-- A flag below a word is bit 0, and the word's bits move up by one. -/
theorem getLsbD_append_flag {n : Nat} (x : BitVec n) (c : Bool) (b : Nat) :
    (x ++ BitVec.ofBool c).getLsbD b = if b = 0 then c else x.getLsbD (b - 1) := by
  rw [BitVec.getLsbD_append]
  by_cases hb : b = 0
  · subst hb
    simp
  · rw [if_neg hb, if_neg (by omega)]

theorem getLsbD_statusBits (busy done err miss limit : Bool) (code : BitVec 4) (b : Nat) :
    (statusBits busy done err miss limit code).getLsbD b =
      if b = 0 then busy else if b = 1 then done else if b = 2 then err else if b = 3 then miss
      else if b = 4 then limit else ((0#20 : BitVec 20) ++ code ++ (0#3 : BitVec 3)).getLsbD (b - 5) := by
  simp only [statusBits, getLsbD_append_flag, Nat.sub_sub, Nat.sub_eq_zero_iff_le]
  split_ifs <;> first | rfl | omega

/-! ### Aperture offsets (20_memory R72, R73, R75) -/

/-- Settles O51: the offset of an address in the aperture is what is left above the base. -/
theorem apertureOffsets : Obligations.ApertureOffsets := by
  intro base addr off
  have hoff := off.isLt
  rw [apertureOffset]
  split_ifs with hin
  · rw [Option.some_inj, ← BitVec.toNat_inj, BitVec.toNat_ofNat, Nat.mod_eq_of_lt (by omega)]
    omega
  · simp only [false_iff]
    omega

theorem ruleRamBase_eq (r : Ram) : Rule.ramBase r = r.base := by
  cases r <;> rfl

theorem ruleRamCount_eq (r : Ram) : Rule.ramCount r = r.words := by
  cases r <;> rfl

theorem ruleRamOffset_eq (r : Ram) (i : Nat) : Rule.ramOffset r i = BitVec.ofNat 17 (ramAddr r i) := by
  rw [Rule.ramOffset, ruleRamBase_eq, ramAddr]

/-- A RAM word is reached at the rule's offset of it. -/
theorem locate_ruleRamOffset {r : Ram} {i : Nat} (h : i < Rule.ramCount r) :
    locate (Rule.ramOffset r i) = .ram r i ∧ (Rule.ramOffset r i).toNat = ramAddr r i ∧
      (Rule.ramOffset r i).toNat % 4 = 0 := by
  rw [ruleRamCount_eq] at h
  obtain ⟨hloc, htoNat, h4⟩ := locate_offsetOf (l := .ram r i) (a := ramAddr r i) rfl fun r' i' he => by
    cases he
    exact h
  rw [ruleRamOffset_eq, htoNat]
  exact ⟨hloc, rfl, h4⟩

theorem hostTurn_read_ram {r : Ram} {i : Nat} (h : i < Rule.ramCount r) (s : State) :
    hostTurn (busRead (Rule.ramOffset r i)) s = locRead (.ram r i) s := by
  obtain ⟨hloc, -, h4⟩ := locate_ruleRamOffset h
  rw [hostTurn_read h4, hloc]

theorem hostTurn_write_ram {r : Ram} {i : Nat} (h : i < Rule.ramCount r) (w : Word) (s : State) :
    hostTurn (busWrite (Rule.ramOffset r i) w) s = unlessBusy s (s.withMem (writeRam s.mem r i w)) := by
  obtain ⟨hloc, -, h4⟩ := locate_ruleRamOffset h
  rw [hostTurn_write h4, hloc, locWrite]

/-- A configuration register is reached at the rule's offset of it. -/
theorem locate_configOffset (r : CfgReg) :
    locate (Rule.configOffset r) = .cfg r ∧ (Rule.configOffset r).toNat % 4 = 0 := by
  cases r <;> decide

theorem hostTurn_write_cfg (r : CfgReg) (w : Word) (s : State) :
    hostTurn (busWrite (Rule.configOffset r) w) s = unlessBusy s (s.withCfg (cfgWrite r w s.cfg)) := by
  obtain ⟨hloc, h4⟩ := locate_configOffset r
  rw [hostTurn_write h4, hloc, locWrite]

/-- No command writes a configuration register, so its read is exact, busy or not (70_reset_and_hazards R301). -/
theorem hostTurn_read_cfg (r : CfgReg) (s : State) :
    hostTurn (busRead (Rule.configOffset r)) s = { s with rdata := cfgRead r s.cfg } := by
  obtain ⟨hloc, h4⟩ := locate_configOffset r
  rw [hostTurn_read h4, hloc]
  exact locRead_exact (.cfg r) (fun _ => rfl) (by simp)

/-! ### RAM words (20_memory R75, R77) -/

/-- Settles O41: a RAM word is read lane by lane. -/
theorem byteLanesAreLittleEndian : Obligations.ByteLanesAreLittleEndian := by
  intro m r i b hi hb
  have hlane : (readRam m r i).extractLsb' (8 * b) 8 = byteOfWord (readWord m (ramAddr r i)) b := by
    rw [readRam, if_pos hi, byteOfWord]
  rw [hlane, readWord, byteOfWord_wordOfBytes _ _ _ _ b hb]
  interval_cases b <;> rfl

/-- Settles O40: the offset reaches the word, and a write keeps the bits that the RAM stores. -/
theorem ramWindowReadsAndWrites : Obligations.RamWindowReadsAndWrites := by
  intro s r i w hi
  obtain ⟨-, htoNat, -⟩ := locate_ruleRamOffset hi
  have hwords : i < r.words := ruleRamCount_eq r ▸ hi
  have haddr : Rule.ramBase r + 4 * i = ramAddr r i := by rw [ruleRamBase_eq, ramAddr]
  rw [haddr, hostTurn_read_ram hi, hostTurn_write_ram hi]
  refine ⟨htoNat, fun hb => locRead_idle _ hb, fun hb => unlessBusy_busy _ hb, fun hb => ?store, ?high⟩
  case store =>
    refine ⟨_, unlessBusy_idle _ hb, ?_, fun a ha => readByte_writeRam_outside _ _ _ _ ha⟩
    rw [readRam_writeRam, if_pos ⟨rfl, rfl, hwords⟩, keptBits]
  case high =>
    rintro rfl
    exact readRam_raw_high s.mem hwords

/-! ### Configuration registers (10_state R33 to R50) -/

/-- A write stores the field's width of the word. -/
theorem configField_cfgWrite_same (r : CfgReg) (w : Word) (c : ConfigRegs) :
    Rule.configField (cfgWrite r w c) r = w.toNat % 2 ^ Rule.configWidth r := by
  have full : w.toNat = w.toNat % 2 ^ 32 := (Nat.mod_eq_of_lt w.isLt).symm
  cases r
  case rawShift => exact BitVec.toNat_setWidth ..
  case winLen => exact BitVec.toNat_setWidth ..
  case lineLen => exact BitVec.toNat_setWidth ..
  case rowCeil => exact BitVec.toNat_setWidth ..
  case chunkW => exact BitVec.toNat_setWidth ..
  all_goals exact full

/-- A write leaves every other field. -/
theorem configField_cfgWrite_other {r r' : CfgReg} (h : r' ≠ r) (w : Word) (c : ConfigRegs) :
    Rule.configField (cfgWrite r w c) r' = Rule.configField c r' := by
  cases r <;> cases r' <;> first | rfl | exact absurd rfl h

/-- A register reads its field, zero above. -/
theorem toNat_cfgRead (r : CfgReg) (c : ConfigRegs) : (cfgRead r c).toNat = Rule.configField c r := by
  cases r
  case rawShift => exact BitVec.toNat_setWidth_of_le (by decide)
  case winLen => exact BitVec.toNat_setWidth_of_le (by decide)
  case lineLen => exact BitVec.toNat_setWidth_of_le (by decide)
  case rowCeil => exact BitVec.toNat_setWidth_of_le (by decide)
  case chunkW => exact BitVec.toNat_setWidth_of_le (by decide)
  all_goals rfl

/-- Settles O42: the offset reaches the register, busy or not, and the write changes its field only. -/
theorem configRegisterWrites : Obligations.ConfigRegisterWrites := by
  intro s r w
  rw [hostTurn_write_cfg, hostTurn_read_cfg]
  exact ⟨fun hb => ⟨_, unlessBusy_idle _ hb, configField_cfgWrite_same r w s.cfg,
    fun r' hr => configField_cfgWrite_other hr w s.cfg⟩, fun hb => unlessBusy_busy _ hb, _, toNat_cfgRead r s.cfg, rfl⟩

/-! ### Control and result registers (10_state R25 to R32) -/

/-- Settles O44: the read-only locations, and the words they read. -/
theorem resultRegistersIgnoreWrites : Obligations.ResultRegistersIgnoreWrites := by
  intro s w
  refine ⟨hostTurn_write (off := 0x01C#17) (by decide) w s, hostTurn_write (off := 0x024#17) (by decide) w s, ?cmd,
    fun hb => ⟨_, _, toNat_setWidth_word s.row, toNat_syncPosWord s, ?row, ?sync⟩⟩
  case cmd =>
    exact (hostTurn_read (off := 0x018#17) (by decide) s).trans (locRead_exact .cmd (fun _ => rfl) (by decide))
  case row => exact (hostTurn_read (off := 0x01C#17) (by decide) s).trans (locRead_idle .row hb)
  case sync => exact (hostTurn_read (off := 0x024#17) (by decide) s).trans (locRead_idle .syncPos hb)

/-- Settles O45: each offset reaches its register, whose idle write stores its fields. -/
theorem controlRegisterWrites : Obligations.ControlRegisterWrites := by
  intro s w hb
  refine ⟨fun hbit => ?ctrl, ?irqEn, ⟨w.setWidth 16, BitVec.toNat_setWidth .., ?offset⟩, toNat_ctrlWord s,
    toNat_irqEnWord s, toNat_setWidth_word s.offset⟩
  case ctrl => exact (hostTurn_modes hbit s).trans (unlessBusy_idle _ hb)
  case irqEn => exact (hostTurn_write (off := 0x014#17) (by decide) w s).trans (unlessBusy_idle _ hb)
  case offset => exact (hostTurn_write (off := 0x020#17) (by decide) w s).trans (unlessBusy_idle _ hb)

/-- Settles O50: a read changes the word returned and the count of draws, and while idle it draws nothing. -/
theorem validReadsHaveNoSideEffect : Obligations.ValidReadsHaveNoSideEffect := by
  intro s off h4
  rw [hostTurn_read h4]
  by_cases hb : s.busy = false
  · exact ⟨_, _, locRead_idle _ hb, fun _ => ⟨rfl, rfl⟩⟩
  · exact ⟨_, _, locRead_eq _ s, fun h => absurd h hb⟩

/-! ### Reads while a command is pending (70_reset_and_hazards R301) -/

/-- A register read while a command is pending, in the form of the statement: the value held as a number. -/
theorem exists_read_pending {s : State} {i : Instr} (hb : s.busy = true) (hp : s.pending = some i) (off : BitVec 17)
    (l : Loc) {n : Nat} (hloc : off.toNat % 4 = 0 ∧ locate off = l ∧ l ≠ .status) (hn : (regRead l s).toNat = n) :
    ∃ v : Word, v.toNat = n ∧ hostTurn (busRead off) s = if locInWriteSet i s.cfg l then
      { s with rdata := Config.freeWord s.draws, draws := s.draws + 1 } else { s with rdata := v } := by
  obtain ⟨h4, hat, hl⟩ := hloc
  exact ⟨_, hn, by rw [hostTurn_read h4, hat, locRead_pending l hb hp hl]⟩

/-- A `STATUS` read while a command is pending draws once where the command writes `ALIGN_MISS`. -/
theorem hostTurn_read_status_pending {s : State} {i : Instr} (hb : s.busy = true) (hp : s.pending = some i) :
    hostTurn (busRead 0x010#17) s = { s with
      rdata := statusReadBusy i (Config.freeWord s.draws) s
      draws := if writesSync i then s.draws + 1 else s.draws } := by
  have hfly : inFlight s = some i := by rw [inFlight, hb, if_pos rfl, hp]
  have hloc : locate 0x010#17 = .status := by decide
  have hdraw : readsDraw .status s = writesSync i := by
    rw [readsDraw, hfly]
    exact Bool.false_or _
  have hvalue : readValue .status s = statusReadBusy i (Config.freeWord s.draws) s := by
    rw [readValue, hfly]
    rfl
  rw [hostTurn_read (by decide), hloc, locRead_eq, hdraw, hvalue]

/-- The bits of a `STATUS` read that the pending command does not write are exact. -/
theorem getLsbD_statusReadBusy {i : Instr} (d : Word) (s : State) {b : Nat} (h3 : b ≠ 3 ∨ writesSync i = false)
    (h4 : b ≠ 4 ∨ writesRowLimit i = false) : (statusReadBusy i d s).getLsbD b = (regRead .status s).getLsbD b := by
  have hmiss : b = 3 → writesSync i = false := fun hb => h3.resolve_left (not_not.2 hb)
  have hlimit : b = 4 → writesRowLimit i = false := fun hb => h4.resolve_left (not_not.2 hb)
  rw [statusReadBusy, regRead, statusWord, getLsbD_statusBits, getLsbD_statusBits]
  split_ifs <;> simp_all

/-- Only LINE writes `ROW_LIMIT`, and LINE writes `ALIGN_MISS` too (40_command_engine R135). -/
theorem getLsbD_statusReadBusy_drawn {i : Instr} (d : Word) (s : State) :
    (writesSync i = true → (statusReadBusy i d s).getLsbD 3 = d.getLsbD 3) ∧
    (writesRowLimit i = true → (statusReadBusy i d s).getLsbD 4 = d.getLsbD 4) := by
  rw [statusReadBusy, getLsbD_statusBits, getLsbD_statusBits]
  exact ⟨fun h => if_pos h, fun h => if_pos h⟩

/-- Settles O49: location by location, inside the write set a draw and outside it the value held. -/
theorem readsWhilePending : Obligations.ReadsWhilePending := by
  intro s i hb hp
  refine ⟨fun r k hk => ?ram, fun e he => ?register, fun r => ⟨_, toNat_cfgRead r s.cfg, hostTurn_read_cfg r s⟩,
    fun off h4 hrange => ?reserved, _, _, hostTurn_read_status_pending hb hp, fun b => getLsbD_statusReadBusy _ s,
    fun h => ?noDraw, fun h => ⟨?missDrawn, ?draw⟩, ?limitDrawn⟩
  case ram => rw [hostTurn_read_ram hk, locRead_pending (.ram r k) hb hp (by simp)]; rfl
  case register =>
    simp only [List.mem_cons, List.not_mem_nil, or_false] at he
    rcases he with rfl | rfl | rfl | rfl | rfl | rfl | rfl | rfl | rfl
    · exact exists_read_pending hb hp 0x01C#17 .row (by decide) (toNat_setWidth_word s.row)
    · exact exists_read_pending hb hp 0x020#17 .offset (by decide) (toNat_setWidth_word s.offset)
    · exact exists_read_pending hb hp 0x024#17 .syncPos (by decide) (toNat_syncPosWord s)
    · exact exists_read_pending hb hp 0x000#17 .id (by decide) rfl
    · exact exists_read_pending hb hp 0x004#17 .lineMax (by decide) rfl
    · exact exists_read_pending hb hp 0x008#17 .lutSize (by decide) rfl
    · exact exists_read_pending hb hp 0x00C#17 .ctrl (by decide) (toNat_ctrlWord s)
    · exact exists_read_pending hb hp 0x014#17 .irqEn (by decide) (toNat_irqEnWord s)
    · exact exists_read_pending hb hp 0x018#17 .cmd (by decide) rfl
  case reserved => exact (reservedOffsetsReadZeroIgnoreWrites s off 0#32 h4 hrange).1
  case noDraw => rw [h]; rfl
  case missDrawn => exact (getLsbD_statusReadBusy_drawn _ s).1 h
  case draw => rw [h]; rfl
  case limitDrawn => exact (getLsbD_statusReadBusy_drawn _ s).2

end Sys2Proof.Machine
end

section
/-! SUPPORT. The facts about FILTER, DEMOD and LINE that the statements on their results need beside the laws: the model's
samples, means and extremes in the words of the rules, and what each stage of a line leaves for the next. -/

namespace Sys2Proof.Machine

/-! ### Numbers in the words of the rules (00_scope R10, R11) -/

theorem q_eq_real (w : Word) : q w = Rule.real w := by
  norm_num [q, Rule.real]

/-- Saturating is the same whichever bound is applied first. -/
theorem fx_eq_fixed (x : ℚ) : fx x = Rule.fixed x := by
  rw [fx, sat32, clampZ_eq_max_min _ (by norm_num), min_comm, Rule.fixed, word32]
  norm_num

theorem fx_one : fx 1 = 0x10000#32 := by
  rw [fx, one_mul, Int.floor_ofNat, sat32_of_mem (by norm_num) (by norm_num)]
  rfl

/-- The values of `f` over the `N` samples from `b` on. -/
def samplesOf (f : Nat → ℚ) (b N : Nat) : List ℚ := (List.range N).map fun m => f (b + m)

theorem length_samplesOf (f : Nat → ℚ) (b N : Nat) : (samplesOf f b N).length = N := by
  simp [samplesOf]

theorem samplesOf_ne_nil (f : Nat → ℚ) (b : Nat) {N : Nat} (hN : 1 ≤ N) : samplesOf f b N ≠ [] :=
  List.ne_nil_of_length_pos (by rwa [length_samplesOf])

theorem mean_samplesOf (f : Nat → ℚ) (b : Nat) {N : Nat} (hN : 1 ≤ N) : mean (samplesOf f b N) = Rule.meanOver f b N := by
  rw [mean_of_ne_nil (samplesOf_ne_nil f b hN), length_samplesOf]
  rfl

theorem setOf_mem_samplesOf (f : Nat → ℚ) (b N : Nat) : {x | x ∈ samplesOf f b N} = f '' Set.Ico b (b + N) := by
  ext x
  simp only [samplesOf, List.mem_map, List.mem_range, Set.mem_ofPred_eq, Set.mem_image, Set.mem_Ico]
  constructor
  · rintro ⟨m, hm, rfl⟩
    exact ⟨b + m, by omega, rfl⟩
  · rintro ⟨i, hi, rfl⟩
    exact ⟨i - b, by omega, by rw [Nat.add_sub_cancel' hi.1]⟩

theorem extremes_samplesOf (f : Nat → ℚ) (b : Nat) {N : Nat} (hN : 1 ≤ N) :
    Rule.Extremes f b N (minOf (samplesOf f b N)) (maxOf (samplesOf f b N)) := by
  rw [Rule.Extremes, ← setOf_mem_samplesOf]
  exact ⟨minOf_isLeast (samplesOf_ne_nil f b hN), maxOf_isGreatest (samplesOf_ne_nil f b hN)⟩

/-- Equal values have their common value as both extremes. -/
theorem maxOf_eq_minOf_of_const {xs : List ℚ} (hne : xs ≠ []) {v : ℚ} (h : ∀ x ∈ xs, x = v) : maxOf xs = minOf xs :=
  (h _ (maxOf_isGreatest hne).1).trans (h _ (minOf_isLeast hne).1).symm

/-! ### FILTER (41_reconstructor R143) -/

/-- Settles O19: each average is read back as it was computed, and the store stays inside the windows' words. -/
theorem filterStoresWindowAverages : Obligations.FilterStoresWindowAverages := by
  intro s hlegal
  obtain ⟨hline, hwin, hscale⟩ := legal_filter hlegal
  rw [← nwin_eq_windows hwin]
  refine ⟨_, exec_eq .filter s, fun j hj => ?_, fun a ha => readByte_writeRange_outside _ _ _ _ ha⟩
  rw [effectOf, readRam_filterEffect hline hwin hj, windowAverage, mean_windowVolts s j hwin hscale, fx_eq_fixed]

/-! ### The aligned line (41_reconstructor R154) -/

theorem aligned_eq {s : State} (hline : lLine s.cfg = true) (i : Nat) :
    aligned s i = readRam s.mem .raw ((i + s.offset.toNat) % s.cfg.lineLen.toNat) := by
  rw [aligned, alignedIndex, remOf_of_pos (lLine_iff.1 hline).1]

/-- No effect changes a `RAW` word: every word of a write set lies above `RAW` (20_memory R73). -/
theorem readRam_raw_effectOf (i : Instr) (s : State) (k : Nat) :
    readRam (effectOf i s).mem .raw k = readRam s.mem .raw k := by
  have byte : ∀ a < 0x8000, readByte (effectOf i s).mem a = readByte s.mem a := fun a ha =>
    effectOf_outside i s fun r j hin => .inl <| by
      have hbase : 0x8000 ≤ r.base := by
        have hne := ne_raw_of_inRamWriteSet hin
        cases r
        case raw => exact absurd rfl hne
        all_goals decide
      rw [ramAddr]
      omega
  unfold readRam
  split_ifs with hk
  · have hlt : ramAddr .raw k + 4 ≤ 0x8000 := (ramAddr_lt hk).2
    simp only [readWord]
    rw [byte _ (by omega), byte _ (by omega), byte _ (by omega), byte _ (by omega)]
  · rfl

/-- Settles O24: the aligned index is the index that a rotation reads, and `RAW` is in no write set. -/
theorem alignedLineIsTheRotatedLine : Obligations.AlignedLineIsTheRotatedLine := by
  refine ⟨fun s hline _ => ?_, fun i s => ⟨_, exec_eq i s, readRam_raw_effectOf i s⟩⟩
  refine List.ext_getElem (by simp) fun n hn _ => ?_
  simp [List.getElem_rotate, aligned_eq hline]

/-! ### DEMOD: its samples in the words of the rules (42_demodulator R161 to R164) -/

theorem legal_demod {s : State} (h : legal .demod s = true) :
    lLine s.cfg = true ∧ lChunk s.cfg = true ∧ lScale s.cfg = true ∧ lAmp s.cfg = true ∧ lY s.cfg = true ∧
      lIq s.cfg = true ∧ lOff s = true := by
  simpa [legal, and_assoc] using h

theorem sampleVolt_eq_rule {s : State} (hline : lLine s.cfg = true) (hscale : lScale s.cfg = true) (i : Nat) :
    sampleVolt s i = Rule.alignedVolt s i := by
  rw [sampleVolt, aligned_eq hline, volt_eq_rule s _ hscale, Rule.alignedVolt]

theorem phaseIndex_eq_tableIndex (s : State) (i : Nat) : phaseIndex s.cfg (sampleIndex s i) = Rule.tableIndex s i := by
  have h := congrArg Int.toNat (phaseIndex_eq_floor s.cfg (sampleIndex s i))
  rwa [Int.toNat_natCast] at h

theorem contribI_eq_rule {s : State} (hline : lLine s.cfg = true) (hscale : lScale s.cfg = true) (i : Nat) :
    sampleVolt s i * sampleSin s i * q s.cfg.gain = Rule.contribI s i := by
  rw [sampleVolt_eq_rule hline hscale, sampleSin, phaseIndex_eq_tableIndex, q_eq_real, q_eq_real, Rule.contribI]

theorem contribQ_eq_rule {s : State} (hline : lLine s.cfg = true) (hscale : lScale s.cfg = true) (i : Nat) :
    sampleVolt s i * sampleCos s i * q s.cfg.gain = Rule.contribQ s i := by
  rw [sampleVolt_eq_rule hline hscale, sampleCos, phaseIndex_eq_tableIndex, q_eq_real, q_eq_real, Rule.contribQ]

/-- A function over the samples of a chunk. -/
theorem map_chunkSamples (f : Nat → ℚ) (s : State) (c : Nat) :
    (chunkSamples s c).map f = samplesOf f (c * s.cfg.chunkW.toNat) s.cfg.chunkW.toNat := by
  rw [chunkSamples, List.map_map]
  rfl

theorem chunkVolts_eq {s : State} (hline : lLine s.cfg = true) (hscale : lScale s.cfg = true) (c : Nat) :
    chunkVolts s c = samplesOf (Rule.alignedVolt s) (c * s.cfg.chunkW.toNat) s.cfg.chunkW.toNat := by
  rw [chunkVolts, map_chunkSamples, funext (sampleVolt_eq_rule hline hscale)]

theorem chunkI_eq {s : State} (hline : lLine s.cfg = true) (hscale : lScale s.cfg = true) (c : Nat) :
    chunkI s c = samplesOf (Rule.contribI s) (c * s.cfg.chunkW.toNat) s.cfg.chunkW.toNat := by
  rw [chunkI, map_chunkSamples, funext (contribI_eq_rule hline hscale)]

theorem chunkQ_eq {s : State} (hline : lLine s.cfg = true) (hscale : lScale s.cfg = true) (c : Nat) :
    chunkQ s c = samplesOf (Rule.contribQ s) (c * s.cfg.chunkW.toNat) s.cfg.chunkW.toNat := by
  rw [chunkQ, map_chunkSamples, funext (contribQ_eq_rule hline hscale)]

/-! ### DEMOD: what it stores (42_demodulator R165 to R168) -/

/-- The words that DEMOD stores for a chunk, as they read afterwards. -/
theorem readRam_demodEffect {s : State} (hline : lLine s.cfg = true) (hchunk : lChunk s.cfg = true) {c : Nat}
    (hc : c < npix s.cfg) :
    readRam (demodEffect s).mem .ybuf c = fx (demodY s c) ∧ readRam (demodEffect s).mem .ibuf c = fx (demodI s c) ∧
      readRam (demodEffect s).mem .qbuf c = fx (demodQ s c) := by
  have hmax : c < Config.lineMax := hc.trans_le (npix_le hline hchunk)
  have hwords : c < Ram.ybuf.words ∧ c < Ram.ibuf.words ∧ c < Ram.qbuf.words := ⟨hmax, hmax, hmax⟩
  simp [demodEffect, demodMem, readRam_writeRange, hc, hwords, keptBits]

theorem demodY_eq_luma {s : State} (hlegal : legal .demod s = true) (c : Nat) : fx (demodY s c) = Rule.luma s c := by
  obtain ⟨hline, hchunk, hscale, -, hy, -⟩ := legal_demod hlegal
  have hd : q s.cfg.yHi - q s.cfg.yLo ≠ 0 := (sub_pos.2 (q_lt (lY_iff.1 hy))).ne'
  rw [demodY, normLuma, divQ_of_ne hd, chunkVolts_eq hline hscale, mean_samplesOf _ _ (lChunk_iff.1 hchunk).1, fx_eq_fixed,
    q_eq_real, q_eq_real]
  rfl

/-- The stored chroma of a list of contributions is the rule's, with its extremes. -/
theorem chroma_eq_rule {s : State} (hchunk : lChunk s.cfg = true) (hiq : lIq s.cfg = true) (f : Nat → ℚ) {ceil : Word}
    (hceil : 0 < s32 ceil) (c : Nat) :
    let xs := samplesOf f (c * s.cfg.chunkW.toNat) s.cfg.chunkW.toNat
    fx (normChroma (mean xs) (q s.cfg.iqLim) (gate xs (q ceil))) = Rule.chroma s c f ceil (minOf xs) (maxOf xs) := by
  intro xs
  rw [normChroma, divQ_of_ne (q_pos (lIq_iff.1 hiq)).ne', gate, divQ_of_ne (q_pos hceil).ne',
    mean_samplesOf _ _ (lChunk_iff.1 hchunk).1, fx_eq_fixed, q_eq_real, q_eq_real]
  rfl

/-- Settles O27: the three words of a chunk in the rule's words, each chroma with the extremes of its own contributions. -/
theorem demodStoresYiq : Obligations.DemodStoresYiq := by
  intro s hlegal
  obtain ⟨hline, hchunk, hscale, hamp, -, hiq, -⟩ := legal_demod hlegal
  obtain ⟨hampI, hampQ⟩ := lAmp_iff.1 hamp
  have hW := (lChunk_iff.1 hchunk).1
  rw [← npix_eq_pixels hchunk]
  refine ⟨_, exec_eq .demod s, fun c hc => ⟨_, _, _, _, extremes_samplesOf (Rule.contribI s) _ hW,
    extremes_samplesOf (Rule.contribQ s) _ hW, ?_⟩, fun a hY hI hQ => ?outside⟩
  · obtain ⟨hy, hi, hq⟩ := readRam_demodEffect hline hchunk hc
    rw [effectOf, hy, hi, hq, demodY_eq_luma hlegal, demodI, demodQ, chunkI_eq hline hscale, chunkQ_eq hline hscale]
    exact ⟨rfl, chroma_eq_rule hchunk hiq _ hampI c, chroma_eq_rule hchunk hiq _ hampQ c⟩
  case outside =>
    show readByte (demodMem s) a = _
    rw [demodMem, readByte_writeRange_outside _ _ _ _ hQ, readByte_writeRange_outside _ _ _ _ hI,
      readByte_writeRange_outside _ _ _ _ hY]

/-- A stored value between two whole numbers reads between them, in 2^-16 units. -/
theorem toInt_fx_mem {x : ℚ} {lo hi : Int} (hlo : -1 ≤ lo) (hhi : hi ≤ 1) (h : (lo : ℚ) ≤ x ∧ x ≤ hi) :
    lo * 2 ^ 16 ≤ (fx x).toInt ∧ (fx x).toInt ≤ hi * 2 ^ 16 := by
  obtain ⟨h1, h2⟩ := h
  have hlo' : (-1 : ℚ) ≤ lo := by exact_mod_cast hlo
  have hhi' : (hi : ℚ) ≤ 1 := by exact_mod_cast hhi
  rw [toInt_fx_of_mem (by linarith) (by linarith)]
  constructor
  · exact Int.le_floor.2 (by push_cast; linarith)
  · have hfloor := Int.floor_le_floor (show x * 65536 ≤ ((hi * 2 ^ 16 : Int) : ℚ) by push_cast; linarith)
    rwa [Int.floor_intCast] at hfloor

/-- Settles O28: the normalised luma and chroma lie in their ranges, and the rounding keeps whole bounds. -/
theorem demodStoresNormalisedValues : Obligations.DemodStoresNormalisedValues := by
  intro s c hlegal hc
  obtain ⟨hline, hchunk, hscale, hamp, hy, hiq, -⟩ := legal_demod hlegal
  obtain ⟨hampI, hampQ⟩ := lAmp_iff.1 hamp
  have hW := (lChunk_iff.1 hchunk).1
  obtain ⟨hrY, hrI, hrQ⟩ := readRam_demodEffect hline hchunk (c := c) (by rwa [npix_eq_pixels hchunk])
  have hneI : chunkI s c ≠ [] := chunkI_eq hline hscale c ▸ samplesOf_ne_nil _ _ hW
  have hneQ : chunkQ s c ≠ [] := chunkQ_eq hline hscale c ▸ samplesOf_ne_nil _ _ hW
  have hgateI := gate_mem hneI (q_pos hampI)
  have hgateQ := gate_mem hneQ (q_pos hampQ)
  have hlim := q_pos (lIq_iff.1 hiq)
  obtain ⟨hy0, hy1⟩ := toInt_fx_mem (lo := 0) (hi := 1) (x := demodY s c) (by norm_num) le_rfl
    (by exact_mod_cast normLuma_mem _ (q_lt (lY_iff.1 hy)))
  obtain ⟨hi0, hi1⟩ := toInt_fx_mem (lo := -1) (hi := 1) (x := demodI s c) le_rfl le_rfl
    (by exact_mod_cast normChroma_mem _ hlim hgateI.1 hgateI.2)
  obtain ⟨hq0, hq1⟩ := toInt_fx_mem (lo := -1) (hi := 1) (x := demodQ s c) le_rfl le_rfl
    (by exact_mod_cast normChroma_mem _ hlim hgateQ.1 hgateQ.2)
  refine ⟨_, exec_eq .demod s, ?_⟩
  rw [complete_mem, effectOf, hrY, hrI, hrQ]
  exact ⟨hy0, hy1, hi0, hi1, hq0, hq1⟩

/-! ### DEMOD: its corner cases (42_demodulator R169) -/

/-- Equal contributions have no spread, so they close the gate. -/
theorem gate_of_const {xs : List ℚ} {ceil v : ℚ} (hne : xs ≠ []) (hceil : 0 < ceil) (h : ∀ x ∈ xs, x = v) :
    gate xs ceil = 0 := by
  rw [gate, divQ_of_ne hceil.ne', maxOf_eq_minOf_of_const hne h, sub_self, zero_div, min_eq_left zero_le_one]

/-- A closed gate stores no chroma, whatever the correlation. -/
theorem normChroma_gate_zero (x l : ℚ) : normChroma x l 0 = 0 := mul_zero _

theorem mem_samplesOf_of_const {f : Nat → ℚ} {b N : Nat} {v : ℚ} (h : ∀ m < N, f (b + m) = v) :
    ∀ x ∈ samplesOf f b N, x = v := by
  intro x hx
  simp only [samplesOf, List.mem_map, List.mem_range] at hx
  obtain ⟨m, hm, rfl⟩ := hx
  exact h m hm

theorem demodI_of_const {s : State} (hlegal : legal .demod s = true) {c : Nat} {v : ℚ}
    (h : ∀ m < s.cfg.chunkW.toNat, Rule.contribI s (c * s.cfg.chunkW.toNat + m) = v) : demodI s c = 0 := by
  obtain ⟨hline, hchunk, hscale, hamp, -⟩ := legal_demod hlegal
  rw [demodI, chunkI_eq hline hscale, gate_of_const (samplesOf_ne_nil _ _ (lChunk_iff.1 hchunk).1)
    (q_pos (lAmp_iff.1 hamp).1) (mem_samplesOf_of_const h), normChroma_gate_zero]

theorem demodQ_of_const {s : State} (hlegal : legal .demod s = true) {c : Nat} {v : ℚ}
    (h : ∀ m < s.cfg.chunkW.toNat, Rule.contribQ s (c * s.cfg.chunkW.toNat + m) = v) : demodQ s c = 0 := by
  obtain ⟨hline, hchunk, hscale, hamp, -⟩ := legal_demod hlegal
  rw [demodQ, chunkQ_eq hline hscale, gate_of_const (samplesOf_ne_nil _ _ (lChunk_iff.1 hchunk).1)
    (q_pos (lAmp_iff.1 hamp).2) (mem_samplesOf_of_const h), normChroma_gate_zero]

theorem normLuma_of_le {y lo hi : ℚ} (hlt : lo < hi) (h : y ≤ lo) : normLuma y lo hi = 0 := by
  rw [normLuma, divQ_of_ne (sub_pos.2 hlt).ne', clampQ, max_eq_right h, min_eq_left hlt.le, sub_self, zero_div]

theorem normLuma_of_ge {y lo hi : ℚ} (hlt : lo < hi) (h : hi ≤ y) : normLuma y lo hi = 1 := by
  rw [normLuma, divQ_of_ne (sub_pos.2 hlt).ne', clampQ, max_eq_left (hlt.le.trans h), min_eq_right h,
    div_self (sub_pos.2 hlt).ne']

/-- The luma is the rule's mean of the aligned voltages, normalised. -/
theorem demodY_eq_normLuma {s : State} (hlegal : legal .demod s = true) (c : Nat) :
    demodY s c = normLuma (Rule.meanOver (Rule.alignedVolt s) (c * s.cfg.chunkW.toNat) s.cfg.chunkW.toNat)
      (q s.cfg.yLo) (q s.cfg.yHi) := by
  obtain ⟨hline, hchunk, hscale, -⟩ := legal_demod hlegal
  rw [demodY, chunkVolts_eq hline hscale, mean_samplesOf _ _ (lChunk_iff.1 hchunk).1]

theorem yLo_lt_yHi {s : State} (hlegal : legal .demod s = true) : q s.cfg.yLo < q s.cfg.yHi := by
  obtain ⟨-, -, -, -, hy, -⟩ := legal_demod hlegal
  exact q_lt (lY_iff.1 hy)

theorem demodY_of_le {s : State} (hlegal : legal .demod s = true) {c : Nat}
    (h : Rule.meanOver (Rule.alignedVolt s) (c * s.cfg.chunkW.toNat) s.cfg.chunkW.toNat ≤ Rule.real s.cfg.yLo) :
    demodY s c = 0 := by
  rw [demodY_eq_normLuma hlegal, normLuma_of_le (yLo_lt_yHi hlegal) (by rwa [q_eq_real])]

theorem demodY_of_ge {s : State} (hlegal : legal .demod s = true) {c : Nat}
    (h : Rule.real s.cfg.yHi ≤ Rule.meanOver (Rule.alignedVolt s) (c * s.cfg.chunkW.toNat) s.cfg.chunkW.toNat) :
    demodY s c = 1 := by
  rw [demodY_eq_normLuma hlegal, normLuma_of_ge (yLo_lt_yHi hlegal) (by rwa [q_eq_real])]

/-- Without an increment the phase stays at the start of the table, whatever the shift. -/
theorem phaseIndex_of_carrierInc_zero {c : ConfigRegs} (h : c.carrierInc = 0#32) (p : Nat) : phaseIndex c p = 0 := by
  have hformula := phaseIndex_eq_formula c p
  simp only [h, BitVec.toNat_ofNat, Nat.zero_mod, Nat.cast_zero, mul_zero, Int.zero_ediv, Int.zero_emod] at hformula
  exact_mod_cast hformula

/-- Settles O29: no spread closes the gates, the luma clamps at either end of its window, and the phase stands still. -/
theorem demodCornerCases : Obligations.DemodCornerCases := by
  intro s c hlegal hc
  obtain ⟨hline, hchunk, -⟩ := legal_demod hlegal
  obtain ⟨hrY, hrI, hrQ⟩ := readRam_demodEffect hline hchunk (c := c) (by rwa [npix_eq_pixels hchunk])
  refine ⟨_, exec_eq .demod s, ?_⟩
  rw [complete_mem, effectOf, hrY, hrI, hrQ]
  refine ⟨fun h => ?flatI, fun h => ?flatQ, fun h => ?low, fun h => ?high, fun h i => ?still⟩
  case flatI => rw [demodI_of_const hlegal h, fx_zero]
  case flatQ => rw [demodQ_of_const hlegal h, fx_zero]
  case low => rw [demodY_of_le hlegal h, fx_zero]
  case high => rw [demodY_of_ge hlegal h, fx_one]
  case still =>
    have hphase := phaseIndex_of_carrierInc_zero h (sampleIndex s i)
    rw [sampleSin, sampleCos, hphase, q_eq_real, q_eq_real]
    exact ⟨rfl, rfl, rfl⟩

/-! ### DEMOD: four samples a cycle (42_demodulator R170) -/

/-- The settings of the statement: a quarter cycle a sample, no shift, line-local samples, gain 2 and the ideal table. -/
structure QuarterCycle (s : State) : Prop where
  lineLocal : s.pMode = false
  carrier : s.cfg.carrierInc = 0x40000000#32
  shift : s.cfg.phaseShift = 0#32
  gain : s.cfg.gain = 0x20000#32
  lut0 : readRam s.mem .lut 0 = 0#32
  lut64 : readRam s.mem .lut 64 = 0x10000#32
  lut128 : readRam s.mem .lut 128 = 0#32
  lut192 : readRam s.mem .lut 192 = 0xFFFF0000#32

/-- The sine at the quarters of a cycle. -/
def quarterSin : Fin 4 → ℚ := ![0, 1, 0, -1]

/-- The cosine at the quarters of a cycle. -/
def quarterCos : Fin 4 → ℚ := ![1, 0, -1, 0]

theorem quarterSin_values : quarterSin 0 = 0 ∧ quarterSin 1 = 1 ∧ quarterSin 2 = 0 ∧ quarterSin 3 = -1 :=
  ⟨rfl, rfl, rfl, rfl⟩

theorem quarterCos_values : quarterCos 0 = 1 ∧ quarterCos 1 = 0 ∧ quarterCos 2 = -1 ∧ quarterCos 3 = 0 :=
  ⟨rfl, rfl, rfl, rfl⟩

theorem q_two : q 0x20000#32 = 2 := by
  have htwo : s32 0x20000#32 = 131072 := by decide
  rw [q, htwo]
  norm_num

theorem q_neg_one : q 0xFFFF0000#32 = -1 := by
  have hneg : s32 0xFFFF0000#32 = -65536 := by decide
  rw [q, hneg]
  norm_num

/-- Sample `m` of a chunk of whole cycles stands at quarter `m mod 4` of the table. -/
theorem QuarterCycle.phaseIndex_eq {s : State} (h : QuarterCycle s) {b : Nat} (hb : 4 ∣ b) (m : Nat) :
    phaseIndex s.cfg (sampleIndex s (b + m)) = 64 * (Fin.ofNat 4 m).val := by
  have hformula := phaseIndex_eq_formula s.cfg (b + m)
  have hinc : (0x40000000#32).toNat = 2 ^ 30 := by decide
  rw [h.carrier, h.shift, hinc] at hformula
  rw [sampleIndex_lineLocal h.lineLocal, Fin.val_ofNat]
  simp only [BitVec.toInt_zero] at hformula
  push_cast at hformula
  omega

theorem QuarterCycle.sampleSin_eq {s : State} (h : QuarterCycle s) {b : Nat} (hb : 4 ∣ b) (m : Nat) :
    sampleSin s (b + m) = quarterSin (Fin.ofNat 4 m) := by
  rw [sampleSin, h.phaseIndex_eq hb]
  generalize Fin.ofNat 4 m = k
  fin_cases k
  · exact (congrArg q h.lut0).trans q_zero
  · exact (congrArg q h.lut64).trans q_one
  · exact (congrArg q h.lut128).trans q_zero
  · exact (congrArg q h.lut192).trans q_neg_one

/-- The cosine is the table a quarter further on. -/
theorem QuarterCycle.sampleCos_eq {s : State} (h : QuarterCycle s) {b : Nat} (hb : 4 ∣ b) (m : Nat) :
    sampleCos s (b + m) = quarterCos (Fin.ofNat 4 m) := by
  rw [sampleCos, h.phaseIndex_eq hb]
  generalize Fin.ofNat 4 m = k
  fin_cases k
  · exact (congrArg q h.lut64).trans q_one
  · exact (congrArg q h.lut128).trans q_zero
  · exact (congrArg q h.lut192).trans q_neg_one
  · exact (congrArg q h.lut0).trans q_zero

/-- A sum over whole cycles is the sum over one cycle, as often as there are cycles. -/
theorem sum_quarters (g : Fin 4 → ℚ) (n : Nat) :
    ∑ m ∈ Finset.range (4 * n), g (Fin.ofNat 4 m) = n * ∑ k, g k := by
  induction n with
  | zero => simp
  | succ n ih =>
    have h0 : Fin.ofNat 4 (4 * n) = 0 := Fin.ext (by simp)
    have h1 : Fin.ofNat 4 (4 * n + 1) = 1 := Fin.ext (by simp [Nat.add_mod])
    have h2 : Fin.ofNat 4 (4 * n + 1 + 1) = 2 := Fin.ext (by simp [Nat.add_mod])
    have h3 : Fin.ofNat 4 (4 * n + 1 + 1 + 1) = 3 := Fin.ext (by simp [Nat.add_mod])
    have split : 4 * (n + 1) = 4 * n + 1 + 1 + 1 + 1 := by ring
    simp only [split, Finset.sum_range_succ, ih, h0, h1, h2, h3, Fin.sum_univ_four]
    push_cast
    ring

/-- The mean over a chunk of whole cycles is the mean over one cycle. -/
theorem mean_of_quarters {f : Nat → ℚ} {b N : Nat} (hpos : 0 < N) (h4 : 4 ∣ N) (g : Fin 4 → ℚ)
    (hg : ∀ m < N, f (b + m) = g (Fin.ofNat 4 m)) : mean (samplesOf f b N) = (∑ k, g k) / 4 := by
  obtain ⟨n, rfl⟩ := h4
  have hn : (n : ℚ) ≠ 0 := by exact_mod_cast (show n ≠ 0 by omega)
  have hsum : ∑ m ∈ Finset.range (4 * n), f (b + m) = n * ∑ k, g k := by
    rw [← sum_quarters]
    exact Finset.sum_congr rfl fun m hm => hg m (Finset.mem_range.1 hm)
  rw [mean_samplesOf _ _ hpos, Rule.meanOver, hsum]
  push_cast
  field_simp

/-- Settles O30: over one cycle the sine and the cosine are orthogonal and sum to nothing, and their squares sum to two. -/
theorem quarterCycleDemodRecoversAmplitudes : Obligations.QuarterCycleDemodRecoversAmplitudes := by
  intro s c dc a b hpos h4 hlocal hcarrier hshift hgain h0 h64 h128 h192 hvolt
  have hs : QuarterCycle s := ⟨hlocal, hcarrier, hshift, hgain, h0, h64, h128, h192⟩
  have hstart : 4 ∣ c * s.cfg.chunkW.toNat := h4.mul_left c
  have hgain2 : q s.cfg.gain = 2 := by rw [hgain, q_two]
  refine ⟨?dc, ?sine, ?cosine⟩
  case dc =>
    rw [chunkVolts, map_chunkSamples,
      mean_of_quarters hpos h4 (fun k => dc + a * quarterSin k + b * quarterCos k) hvolt]
    simp only [Fin.sum_univ_four, quarterSin_values, quarterCos_values]
    ring
  case sine =>
    rw [chunkI, map_chunkSamples,
      mean_of_quarters hpos h4 (fun k => (dc + a * quarterSin k + b * quarterCos k) * quarterSin k * 2)
        fun m hm => by rw [hvolt m hm, hs.sampleSin_eq hstart, hgain2]; rfl]
    simp only [Fin.sum_univ_four, quarterSin_values, quarterCos_values]
    ring
  case cosine =>
    rw [chunkQ, map_chunkSamples,
      mean_of_quarters hpos h4 (fun k => (dc + a * quarterSin k + b * quarterCos k) * quarterCos k * 2)
        fun m hm => by rw [hvolt m hm, hs.sampleCos_eq hstart, hgain2]; rfl]
    simp only [Fin.sum_univ_four, quarterSin_values, quarterCos_values]
    ring

end Sys2Proof.Machine
end

section
/-! SUPPORT. The facts about LINE and about the script line `run` that their statements need beside the laws: what each stage
of a line leaves for the next, a line at voltage zero, and the turns of `run` one after another. -/

namespace Sys2Proof.Machine

/-! ### The stages as completion steps (44_line R240, R244) -/

theorem complete_complete (s : State) : complete (complete s) = complete s := rfl

/-- The stages of a line, each ending in its own completion step, end in one completion step. -/
theorem lineStages_of_completions (s : State) :
    complete (colorEffect (complete (demodEffect (complete (syncEffect (complete (filterEffect s))))))) =
      complete (lineStages s) := by
  rw [syncEffect_complete, complete_complete, demodEffect_complete, complete_complete, colorEffect_complete,
    complete_complete, lineStages]

/-- Settles O35: no stage reads what a completion step writes, and the predicates of the rows are the same ones. -/
theorem lineRunsTheFourStages : Obligations.LineRunsTheFourStages := by
  intro s
  refine ⟨fun hbelow => ⟨_, _, _, _, s.row + 1#16, exec_eq .filter s, exec_eq .sync _, exec_eq .demod _, exec_eq .color _,
    toNat_succ_of_lt hbelow, ?stages⟩, ?legality, fun _ => rfl⟩
  case stages =>
    simp only [exec_eq, effectOf, lineEffect_below_ceiling hbelow, lineStages_of_completions]
    rfl
  case legality =>
    simp only [legal, Bool.and_eq_true, lOff_iff]
    tauto

/-! ### What a stage leaves in the RAMs of the other stages -/

theorem readRam_colorEffect_other {r : Ram} (h : r ≠ .pix) (s : State) (k : Nat) :
    readRam (colorEffect s).mem r k = readRam s.mem r k := by
  rw [colorEffect, State.withMem_mem, readRam_writeRange, if_neg fun hr => h hr.1.symm]

theorem readRam_demodEffect_other {r : Ram} (hY : r ≠ .ybuf) (hI : r ≠ .ibuf) (hQ : r ≠ .qbuf) (s : State) (k : Nat) :
    readRam (demodEffect s).mem r k = readRam s.mem r k := by
  rw [demodEffect, State.withMem_mem, demodMem, readRam_writeRange, if_neg fun hr => hQ hr.1.symm, readRam_writeRange,
    if_neg fun hr => hI hr.1.symm, readRam_writeRange, if_neg fun hr => hY hr.1.symm]

/-! ### A line at voltage zero (95_test_vectors E10) -/

theorem meanOver_eq_zero {f : Nat → ℚ} {b N : Nat} (h : ∀ m < N, f (b + m) = 0) : Rule.meanOver f b N = 0 := by
  rw [Rule.meanOver, Finset.sum_eq_zero fun m hm => h m (Finset.mem_range.1 hm), zero_div]

theorem real_zero : Rule.real 0#32 = 0 := by
  rw [← q_eq_real, q_zero]

/-- The samples of a window are samples of the line. -/
theorem window_sample_lt {s : State} {j m : Nat} (hj : j < Rule.windows s) (hm : m < s.cfg.winLen.toNat) :
    j * s.cfg.winLen.toNat + m < s.cfg.lineLen.toNat :=
  calc j * s.cfg.winLen.toNat + m
      < (j + 1) * s.cfg.winLen.toNat := by rw [Nat.succ_mul]; omega
    _ ≤ Rule.windows s * s.cfg.winLen.toNat := Nat.mul_le_mul_right _ hj
    _ ≤ s.cfg.lineLen.toNat := Nat.div_mul_le_self _ _

/-- FILTER stores zero for every window of a line at voltage zero. -/
theorem readRam_filterEffect_baseline {s : State} (hlegal : legal .filter s = true)
    (hzero : ∀ k < s.cfg.lineLen.toNat, Rule.volt s k = 0) {j : Nat} (hj : j < Rule.windows s) :
    readRam (filterEffect s).mem .wavg j = 0#32 := by
  obtain ⟨hline, hwin, hscale⟩ := legal_filter hlegal
  have hmean : Rule.windowMean s j = 0 := meanOver_eq_zero fun m hm => hzero _ (window_sample_lt hj hm)
  rw [readRam_filterEffect hline hwin (by rwa [nwin_eq_windows hwin]), windowAverage, mean_windowVolts s j hwin hscale,
    hmean, fx_zero]

/-- A line at voltage zero has no fall, so SYNC misses (41_reconstructor R151). -/
theorem syncEffect_baseline {s : State} (hlegal : legal .filter s = true)
    (hzero : ∀ k < s.cfg.lineLen.toNat, Rule.volt s k = 0) (hfall : s.cfg.tFall.toInt ≤ 0) :
    syncEffect (filterEffect s) = (filterEffect s).withSync 0#16 0xFFFF#16 0xFFFF#16 true := by
  obtain ⟨-, hwin, -⟩ := legal_filter hlegal
  refine syncEffect_no_fall (fallWindow_eq_none (s := filterEffect s) hwin fun j hj => ?_)
  rw [Rule.Fall, readRam_filterEffect_baseline hlegal hzero hj]
  exact Int.not_lt.2 hfall

/-- DEMOD and COLOR of a line at voltage zero: no luma over `Y_LO = 0`, no chroma, and so black (43_color R195). -/
theorem readRam_baseline_pixel {s : State} (hlegal : legal .demod s = true) (hvolt : ∀ i, Rule.alignedVolt s i = 0)
    (hyLo : s.cfg.yLo = 0#32) {c : Nat} (hc : c < Rule.pixels s) :
    readRam (colorEffect (demodEffect s)).mem .ybuf c = 0#32 ∧ readRam (colorEffect (demodEffect s)).mem .ibuf c = 0#32 ∧
      readRam (colorEffect (demodEffect s)).mem .qbuf c = 0#32 ∧
      readRam (colorEffect (demodEffect s)).mem .pix c = 0xFF000000#32 := by
  obtain ⟨hline, hchunk, -⟩ := legal_demod hlegal
  have hy : demodY s c = 0 := demodY_of_le hlegal (by rw [hyLo, real_zero, meanOver_eq_zero fun m _ => hvolt _])
  have hi : demodI s c = 0 := demodI_of_const hlegal (v := 0) fun m _ => by simp [Rule.contribI, hvolt]
  have hq : demodQ s c = 0 := demodQ_of_const hlegal (v := 0) fun m _ => by simp [Rule.contribQ, hvolt]
  obtain ⟨hrY, hrI, hrQ⟩ := readRam_demodEffect hline hchunk (c := c) (by rwa [npix_eq_pixels hchunk])
  rw [hy, fx_zero] at hrY
  rw [hi, fx_zero] at hrI
  rw [hq, fx_zero] at hrQ
  have hcolor : legal .color (demodEffect s) = true := by
    simp only [legal, Bool.and_eq_true]
    exact ⟨hline, hchunk⟩
  rw [readRam_colorEffect_other (by decide), readRam_colorEffect_other (by decide), readRam_colorEffect_other (by decide),
    readRam_colorEffect hcolor hc, colorPixel, hrY, hrI, hrQ, q_zero, pixelOf_black]
  exact ⟨rfl, rfl, rfl, rfl⟩

theorem legal_filter_of_line {s : State} (h : legal .line s = true) : legal .filter s = true := by
  obtain ⟨hline, hwin, -, hscale, -⟩ := legal_line h
  simp only [legal, Bool.and_eq_true]
  exact ⟨⟨hline, hwin⟩, hscale⟩

/-- A legal LINE makes DEMOD legal after a miss, which sets `OFFSET` to 0 (40_command_engine R134). -/
theorem legal_demod_of_line {s u : State} (h : legal .line s = true) (hcfg : u.cfg = s.cfg) (hoff : u.offset = 0#16) :
    legal .demod u = true := by
  obtain ⟨hline, -, hchunk, hscale, hamp, hy, hiq⟩ := legal_line h
  simp only [legal, Bool.and_eq_true, lOff_iff, hcfg, hoff]
  exact ⟨⟨⟨⟨⟨⟨hline, hchunk⟩, hscale⟩, hamp⟩, hy⟩, hiq⟩, (lLine_iff.1 hline).1⟩

/-- Rotated or not, a line at voltage zero has its aligned samples at zero. -/
theorem alignedVolt_baseline {s u : State} (hline : lLine s.cfg = true)
    (hzero : ∀ k < s.cfg.lineLen.toNat, Rule.volt s k = 0) (hcfg : u.cfg = s.cfg)
    (hraw : ∀ k, readRam u.mem .raw k = readRam s.mem .raw k) (i : Nat) : Rule.alignedVolt u i = 0 := by
  have hsame : ∀ k, Rule.volt u k = Rule.volt s k := fun k => by rw [Rule.volt, Rule.volt, hcfg, hraw]
  rw [Rule.alignedVolt, hsame, hcfg]
  exact hzero _ (Nat.mod_lt _ (lLine_iff.1 hline).1)

/-- The averages of a baseline line are still zero after the later stages. -/
theorem readRam_lineStages_baseline {s : State} (hlegal : legal .filter s = true)
    (hzero : ∀ k < s.cfg.lineLen.toNat, Rule.volt s k = 0) {j : Nat} (hj : j < Rule.windows s) :
    readRam (lineStages s).mem .wavg j = 0#32 := by
  rw [lineStages, readRam_colorEffect_other (by decide), readRam_demodEffect_other (by decide) (by decide) (by decide),
    syncEffect_mem]
  exact readRam_filterEffect_baseline hlegal hzero hj

/-- Settles O37: stage by stage, the averages are zero, the scan misses, and what is left is an unrotated line at zero. -/
theorem baselineLineIsBlack : Obligations.BaselineLineIsBlack := by
  intro s hlegal hbelow hzero hfall hyLo
  have hfilter := legal_filter_of_line hlegal
  have hsync := syncEffect_baseline hfilter hzero hfall
  have hcfg : (syncEffect (filterEffect s)).cfg = s.cfg := syncEffect_cfg (filterEffect s)
  have hraw : ∀ k, readRam (syncEffect (filterEffect s)).mem .raw k = readRam s.mem .raw k := fun k => by
    rw [syncEffect_mem]
    exact readRam_raw_effectOf .filter s k
  have hdemod : legal .demod (syncEffect (filterEffect s)) = true :=
    legal_demod_of_line hlegal hcfg (by rw [hsync, State.withSync_offset])
  have hvolt := alignedVolt_baseline (legal_line hlegal).1 hzero hcfg hraw
  obtain ⟨m, hm⟩ := lineStages_after_sync s
  rw [hsync] at hm
  refine ⟨_, exec_eq .line s, ?_⟩
  rw [effectOf, lineEffect_below_ceiling hbelow]
  refine ⟨?miss, ?offset, ?fall, ?rise, ?err, fun j hj => readRam_lineStages_baseline hfilter hzero hj,
    fun c hc => readRam_baseline_pixel hdemod hvolt (hcfg ▸ hyLo) (by rwa [Rule.pixels, hcfg])⟩
  all_goals
    rw [hm]
    rfl

/-! ### The script line `run` (30_encoding R108) -/

/-- The host transactions of `run` before the engine's turn: `clr`, `cmd`, and the polls that answer `BUSY = 1`. -/
def runTransactions (i : Instr) (polls : Nat) : List Transaction :=
  busWrite 0x010#17 0x00000016#32 :: busWrite 0x018#17 (encode i) :: List.replicate polls (busRead 0x010#17)

theorem length_runTransactions (i : Instr) (polls : Nat) : (runTransactions i polls).length = polls + 2 := by
  simp [runTransactions]

/-- The turns of `run`: its transactions, the completion, and the poll that ends the loop. -/
theorem expandLine_run (i : Instr) (polls : Nat) :
    expandLine (.run i polls) =
      (runTransactions i polls).map Turn.host ++ [.engine, .host (busRead 0x010#17)] := by
  simp [expandLine, runTransactions, waitTurns, clrTurn, cmdTurn]

/-- Polls change the word returned and the count of draws only. -/
theorem afterHost_polls (polls : Nat) (s : State) :
    ∃ w n, afterHost (List.replicate polls (busRead 0x010#17)) s = (s.withDraws n).withRdata w := by
  induction polls generalizing s with
  | zero => exact ⟨s.rdata, s.draws, rfl⟩
  | succ polls ih =>
    obtain ⟨w, n, h⟩ := ih (hostTurn (busRead 0x010#17) s)
    refine ⟨w, n, h.trans ?_⟩
    rw [hostTurn_read (by decide)]
    rfl

/-- `clr` and `cmd` on an idle state in which the command is legal: the command is accepted with no error standing. -/
theorem afterHost_runTransactions {s : State} {i : Instr} (hb : s.busy = false) (hlegal : legal i s = true) (polls : Nat) :
    ∃ w n, afterHost (runTransactions i polls) s =
      ((accept i (clearStatus 0x00000016#32 s)).withDraws n).withRdata w := by
  have hclr : hostTurn (busWrite 0x010#17 0x00000016#32) s = clearStatus 0x00000016#32 s :=
    hostTurn_write (off := 0x010#17) (by decide) _ s
  have hcmd : hostTurn (busWrite 0x018#17 (encode i)) (clearStatus 0x00000016#32 s) =
      accept i (clearStatus 0x00000016#32 s) := by
    have hlegal' : legal i (clearStatus 0x00000016#32 s) = true := (legal_congr i rfl rfl).trans hlegal
    rw [hostTurn_cmd, cmdWrite_encode i (by exact hb), hlegal', if_pos rfl]
  show ∃ w n, afterHost (List.replicate polls (busRead 0x010#17))
    (hostTurn (busWrite 0x018#17 (encode i)) (hostTurn (busWrite 0x010#17 0x00000016#32) s)) = _
  rw [hclr, hcmd]
  exact afterHost_polls polls _

/-- The poll that ends the loop reads the two bits that `wait` looks at. -/
theorem statusWord_done_idle {s : State} (hb : s.busy = false) (hd : s.done = true) :
    (statusWord s).getLsbD 0 = false ∧ (statusWord s).getLsbD 1 = true := by
  rw [statusWord, getLsbD_statusBits, getLsbD_statusBits, hb, hd]
  exact ⟨rfl, rfl⟩

/-- The last poll, after the completion: it returns `STATUS` and takes the last turn off the agenda. -/
theorem run_lastPoll {s : State} (hb : s.busy = false) (ha : s.agenda = [.host (busRead 0x010#17)]) :
    Sys2Proof.core.run 1 s = .next ((s.withAgenda []).withRdata (statusWord s)) := by
  refine run_succ 0 ((step_host ha).trans (congrArg Host.Outcome.next ?_))
  exact (hostTurn_read (off := 0x010#17) (by decide) _).trans (locRead_idle .status hb)

/-- Settles O57: `run` accepts the command with no error standing, completes it with its results, and polls once more. -/
theorem runScriptCompletesTheCommand : Obligations.RunScriptCompletesTheCommand := by
  intro s i polls hb hlegal
  have hrun := run_hosts (runTransactions i polls) 2 [.engine, .host (busRead 0x010#17)] s
  rw [length_runTransactions, ← expandLine_run] at hrun
  obtain ⟨w, n, hu⟩ := afterHost_runTransactions hb hlegal polls
  generalize afterHost (runTransactions i polls) s = u at hrun hu
  rw [run_engine (i := i) (by rw [hu]; rfl) (by rw [hu]; rfl)] at hrun
  have hframe := effectOf_frame i (u.withAgenda [.host (busRead 0x010#17)])
  have hunread : u.withAgenda [.host (busRead 0x010#17)] = s.withUnreadOf (u.withAgenda [.host (busRead 0x010#17)]) := by
    rw [hu]
    rfl
  have hmissKept : u.alignMiss = s.alignMiss := by rw [hu]; rfl
  have hnoError : u.err = false := by rw [hu]; exact Bool.and_false _
  obtain ⟨v, hv, hmiss⟩ := effectOf_withUnreadOf i s (u.withAgenda [.host (busRead 0x010#17)])
  rw [← hunread] at hv
  generalize effectOf i (u.withAgenda [.host (busRead 0x010#17)]) = ended at hrun hframe hv
  have hagenda : (complete ended).agenda = [.host (busRead 0x010#17)] := by rw [hframe]; rfl
  obtain ⟨hnotBusy, hdone⟩ := statusWord_done_idle (s := complete ended) rfl rfl
  refine ⟨_, _, hrun.trans (run_lastPoll rfl hagenda), exec_eq i s, ?mem, ?row, ?offset, ?fall, ?rise, ?miss, ?cfg, rfl,
    ?err, hnotBusy, hdone⟩
  case miss => rw [hv]; exact hmiss (.inr hmissKept)
  case cfg => rw [hframe, hu]; rfl
  case err => rw [hframe]; exact hnoError
  all_goals rw [hv]; rfl

end Sys2Proof.Machine
end
